-- ==== Sys2Proof/Word.lean ====
section
/-! DEFINITION. The two word types of the core (00_scope.md R6, R9): a byte and a 16-bit value.
Byte order, bit fields and sign extension stand in Decode.lean. -/

namespace Sys2Proof

/-- An 8-bit value: A, X, SP, P, the I/O registers and every byte a bus transaction moves (R6). -/
abbrev Byte := BitVec 8

/-- A 16-bit value: PC and every bus address (R6). -/
abbrev Word := BitVec 16

end Sys2Proof
end

