-- ==== Sys2Proof/Config.lean ====
section
/-! DEFINITION. What a ROM load fixes (the cartridge configuration of 00_scope.md R7), the named open
parameters (R8) and the free values of 60_exceptions.md R113 and 70_reset_and_hazards.md R149. -/

namespace Sys2Proof

/-- Bytes by address: a list of cells whose addresses rise strictly and whose bytes are not 0x00
(the form is `Memory.wf`, in WellFormed.lean). An unlisted address inside the buffer holds 0x00, so the
list says every byte of a buffer of known length (log 4, safe: a way of writing a buffer down). -/
abbrev Memory := List Host.Cell

/-- The installed cartridge configuration (00_scope.md R7, 10_state.md R36). `prg` is keyed by PRG
offset, `chr` by CHR offset; their lengths are `prgSize` and `chrSize`. -/
structure Cart where
  /-- PRG_BANKS: the PRG bank count, in units of 16,384 bytes. -/
  prgBanks : Byte
  /-- CHR_BANKS: the CHR bank count, in units of 8,192 bytes; 0 means no CHR buffer. -/
  chrBanks : Byte
  /-- MAPPER_ID: the mapper identifier; 0 is NROM. -/
  mapperId : Byte
  /-- NES2: the header was detected as NES 2.0; informational only. -/
  nes2 : Bool
  /-- PRG: the PRG buffer. -/
  prg : Memory
  /-- CHR: the CHR buffer, or absent. -/
  chr : Option Memory
  deriving DecidableEq, Repr

/-- The named open parameters of 00_scope.md R8 (INIT_A, INIT_X, INIT_P, INIT_PPU_STATUS,
INIT_PPU_CONTROLLER), with the three values 70_reset_and_hazards.md R152 leaves unspecified at process
start (SP, PC and the scheduler's phase, true for odd). The model takes them as an argument
(`Machine.State.processStart`). -/
structure Init where
  a : Byte
  x : Byte
  p : Byte
  ppuStatus : Byte
  ppuController : Byte
  sp : Byte
  pc : Word
  oddPhase : Bool
  deriving DecidableEq, Repr

/-- The values the one reset state of the host's interface takes for the open parameters: all zero,
phase even. DESIGN CHOICE, unsafe (log 1): the spec gives none. -/
def Init.zero : Init where
  a := 0
  x := 0
  p := 0
  ppuStatus := 0
  ppuController := 0
  sp := 0
  pc := 0
  oddPhase := false

/-- The byte a register holds where the spec says "any value" (60_exceptions.md R113,
70_reset_and_hazards.md R149): a free value, drawn by the counter `State.freeCount` (log 3, safe; unsafe for a
claim that compares two machines after a fault). -/
opaque Config.freeByte : Nat → Byte

/-- The word PC holds where the spec says "any value" (R113, R149): a free value (log 3, with the same mark). -/
opaque Config.freeWord : Nat → Word

end Sys2Proof
end

