-- ==== Sys2Proof/Syntax.lean ====
section
/-! DEFINITION. The instructions of the opcode table (30_encoding.md R74), the four formats (R71), the
shape of a table row, and the abstract syntax of the assembler's lines (R84). -/

namespace Sys2Proof

/-- The four instruction formats (30_encoding.md R71). -/
inductive Format where
  | implied
  | immediate
  | absolute
  | relative
  deriving DecidableEq, Repr

/-- The eight entries of the opcode table (R74), by name. -/
inductive Op where
  | bpl
  | sei
  | staAbs
  | txs
  | ldxImm
  | ldaImm
  | ldaAbs
  | cld
  deriving DecidableEq, Repr

/-- One row of the opcode table (R74): the whole opcode byte (mask 0xFF), its entry, its mnemonic, its
format, and the least and the most cycles its cycle column gives. -/
structure OpcodeRow where
  opcode : Byte
  op : Op
  mnemonic : String
  format : Format
  minCycles : Nat
  maxCycles : Nat
  deriving DecidableEq, Repr

/-- The instructions: one constructor per row of the opcode table, with its operand (R71 to R73). Every
operand's width is its type, so every term is a well-formed instruction. -/
inductive Instr where
  /-- BPL rel: branch when N is clear (40_branch.md R90). -/
  | bpl (rel8 : Byte)
  /-- SEI: set the interrupt-disable bit (41_implied.md R96). -/
  | sei
  /-- STA abs: write A to the address (42_load_store.md R101). -/
  | staAbs (addr : Word)
  /-- TXS: copy X into SP (41_implied.md R97). -/
  | txs
  /-- LDX #imm: load X with the operand byte (42_load_store.md R102). -/
  | ldxImm (imm8 : Byte)
  /-- LDA #imm: load A with the operand byte (42_load_store.md R103). -/
  | ldaImm (imm8 : Byte)
  /-- LDA abs: load A from the address (42_load_store.md R104). -/
  | ldaAbs (addr : Word)
  /-- CLD: clear the decimal-mode bit (41_implied.md R98). -/
  | cld
  deriving DecidableEq, Repr

/-- An assembler line (30_encoding.md R84): the mnemonic and its operand as it is written. A branch names
its target address, not its offset. -/
inductive Asm where
  | bpl (target : Word)
  | sei
  | sta (addr : Word)
  | txs
  | ldxImm (imm8 : Byte)
  | ldaImm (imm8 : Byte)
  | ldaAbs (addr : Word)
  | cld
  deriving DecidableEq, Repr

end Sys2Proof
end

