-- ==== Sys2Proof/WellFormed.lean ====
section
/-! DEFINITION. The checks that data of this machine can fail: the canonical form of a byte buffer, a
cartridge's bank counts against its buffers (10_state.md R36), and a branch line's target (30_encoding.md
R84). `Instr` needs no check: each operand's width is in its type, and each operand value is an encoding. -/

namespace Sys2Proof

/-- The addresses rise strictly from `lo` on, and no listed byte is 0x00. -/
def Memory.wfFrom : Nat → Memory → Bool
  | _, [] => true
  | lo, (k, b) :: m => decide (lo ≤ k) && (b != 0) && Memory.wfFrom (k + 1) m

/-- The canonical form of a buffer: addresses strictly rising, no entry equal to what an unlisted address
holds. -/
def Memory.wf (m : Memory) : Bool :=
  Memory.wfFrom 0 m

/-- Every listed address is below `n`. -/
def Memory.below (n : Nat) (m : Memory) : Bool :=
  m.all fun c => decide (c.1 < n)

/-- The length of the PRG buffer: PRG_BANKS × 16384 (R36). -/
def Cart.prgSize (c : Cart) : Nat :=
  c.prgBanks.toNat * 16384

/-- The length of the CHR buffer when present: CHR_BANKS × 8192 (R36). -/
def Cart.chrSize (c : Cart) : Nat :=
  c.chrBanks.toNat * 8192

/-- The CHR buffer is absent exactly when CHR_BANKS is 0, and otherwise canonical and inside its length
(R36). -/
def Cart.chrWf (c : Cart) : Bool :=
  match c.chr with
  | none => c.chrBanks == 0
  | some m => (c.chrBanks != 0) && m.wf && m.below c.chrSize

/-- A cartridge whose buffers agree with its bank counts (R36). -/
def Cart.wellFormed (c : Cart) : Bool :=
  c.prg.wf && c.prg.below c.prgSize && c.chrWf

/-- The distance from the byte after a BPL at `pc0` to a target, mod 65536 (R84, R10). -/
def branchDistance (pc0 target : Word) : Word :=
  target - (pc0 + 2)

/-- An assembler line can be encoded at `pc0`: a branch's distance lies in −128 to +127 (R84); no other
line has a condition. -/
def Asm.wellFormed (pc0 : Word) : Asm → Bool
  | .bpl target =>
    decide ((branchDistance pc0 target).toNat < 0x80) ||
      decide (0xFF80 ≤ (branchDistance pc0 target).toNat)
  | .sei => true
  | .sta _ => true
  | .txs => true
  | .ldxImm _ => true
  | .ldaImm _ => true
  | .ldaAbs _ => true
  | .cld => true

end Sys2Proof
end

