-- ==== Sys2Proof/Decode.lean ====
section
/-! DEFINITION. Byte order and bit fields (00_scope.md R9, R10), the opcode table (30_encoding.md R74), the
decoder (R70 to R82), the encoder written from the same table, and the reading of a table word. -/

namespace Sys2Proof

/-- `hi8(v) = v[15:8]` (R9). -/
def hi8 (v : Word) : Byte :=
  v.extractLsb' 8 8

/-- `lo8(v) = v[7:0]` (R9). -/
def lo8 (v : Word) : Byte :=
  v.extractLsb' 0 8

/-- `(hi : lo)`, the 16-bit concatenation of two bytes (R9). -/
def joinWord (hi lo : Byte) : Word :=
  hi ++ lo

/-- `zext_16(b)` (R10). -/
def zext16 (b : Byte) : Word :=
  b.setWidth 16

/-- `sext_16(b)`: `b` if `b < 0x80` and `b + 0xFF00` otherwise (R10). -/
def sext16 (b : Byte) : Word :=
  if b.toNat < 0x80 then zext16 b else zext16 b + 0xFF00

/-- The bytes of an instruction by its format (R71). -/
def Format.length : Format → Nat
  | .implied => 1
  | .immediate => 2
  | .absolute => 3
  | .relative => 2

/-- The row of each entry of the opcode table (R74). -/
def rowOf : Op → OpcodeRow
  | .bpl => ⟨0x10, .bpl, "BPL", .relative, 2, 4⟩
  | .sei => ⟨0x78, .sei, "SEI", .implied, 2, 2⟩
  | .staAbs => ⟨0x8D, .staAbs, "STA", .absolute, 4, 4⟩
  | .txs => ⟨0x9A, .txs, "TXS", .implied, 2, 2⟩
  | .ldxImm => ⟨0xA2, .ldxImm, "LDX", .immediate, 2, 2⟩
  | .ldaImm => ⟨0xA9, .ldaImm, "LDA", .immediate, 2, 2⟩
  | .ldaAbs => ⟨0xAD, .ldaAbs, "LDA", .absolute, 4, 4⟩
  | .cld => ⟨0xD8, .cld, "CLD", .implied, 2, 2⟩

/-- The opcode table: exactly these eight entries (R74), in the table's order. -/
def opcodeTable : List OpcodeRow :=
  [rowOf .bpl, rowOf .sei, rowOf .staAbs, rowOf .txs,
    rowOf .ldxImm, rowOf .ldaImm, rowOf .ldaAbs, rowOf .cld]

/-- The row of a list of rows that an opcode byte selects: the whole byte is compared (R82). -/
def findRow : List OpcodeRow → Byte → Option OpcodeRow
  | [], _ => none
  | r :: rows, b => if r.opcode = b then some r else findRow rows b

/-- The opcode table's row of a byte, or none where the byte is illegal (R76). -/
def lookupOpcode (b : Byte) : Option OpcodeRow :=
  findRow opcodeTable b

/-- The length an opcode byte alone gives (R78); an illegal opcode has none. -/
def opcodeLength (b : Byte) : Option Nat :=
  (lookupOpcode b).map fun r => r.format.length

/-- The instruction of a table entry and its operand bytes, byte 1 and byte 2 (R71 to R73). A format
ignores the bytes it does not have. -/
def Op.withOperands : Op → Byte → Byte → Instr
  | .bpl, b1, _ => .bpl b1
  | .sei, _, _ => .sei
  | .staAbs, lo, hi => .staAbs (joinWord hi lo)
  | .txs, _, _ => .txs
  | .ldxImm, b1, _ => .ldxImm b1
  | .ldaImm, b1, _ => .ldaImm b1
  | .ldaAbs, lo, hi => .ldaAbs (joinWord hi lo)
  | .cld, _, _ => .cld

/-- Why a list of bytes does not start with an instruction. -/
inductive DecodeError where
  /-- There is no byte at all. -/
  | noBytes
  /-- The opcode byte is not in the table (R76). -/
  | illegalOpcode (opcode : Byte)
  /-- The bytes end before the last operand byte of this entry. -/
  | truncated (op : Op)
  deriving DecidableEq, Repr

/-- Take the operand bytes of a row from the bytes after the opcode. -/
def takeOperands (r : OpcodeRow) (rest : List Byte) : Except DecodeError (Instr × List Byte) :=
  match r.format, rest with
  | .implied, more => .ok (r.op.withOperands 0 0, more)
  | .immediate, b1 :: more => .ok (r.op.withOperands b1 0, more)
  | .relative, b1 :: more => .ok (r.op.withOperands b1 0, more)
  | .absolute, lo :: hi :: more => .ok (r.op.withOperands lo hi, more)
  | _, _ => .error (.truncated r.op)

/-- The instruction a list of bytes starts with and the bytes after it, or why there is none (R70, R78,
R82). Total on any bytes; it reads nothing but the bytes. -/
def decode : List Byte → Except DecodeError (Instr × List Byte)
  | [] => .error .noBytes
  | b :: rest =>
    match lookupOpcode b with
    | none => .error (.illegalOpcode b)
    | some r => takeOperands r rest

/-- The table entry of an instruction. -/
def Instr.op : Instr → Op
  | .bpl _ => .bpl
  | .sei => .sei
  | .staAbs _ => .staAbs
  | .txs => .txs
  | .ldxImm _ => .ldxImm
  | .ldaImm _ => .ldaImm
  | .ldaAbs _ => .ldaAbs
  | .cld => .cld

/-- The row of an instruction. -/
def Instr.row (i : Instr) : OpcodeRow :=
  rowOf i.op

/-- The length of an instruction in bytes (R78). -/
def Instr.length (i : Instr) : Nat :=
  i.row.format.length

/-- The bytes of an instruction (R71): the opcode, then the operand, an address low byte first (R73). -/
def encode : Instr → List Byte
  | .bpl rel8 => [0x10, rel8]
  | .sei => [0x78]
  | .staAbs addr => [0x8D, lo8 addr, hi8 addr]
  | .txs => [0x9A]
  | .ldxImm imm8 => [0xA2, imm8]
  | .ldaImm imm8 => [0xA9, imm8]
  | .ldaAbs addr => [0xAD, lo8 addr, hi8 addr]
  | .cld => [0xD8]

/-- The first three bytes (the longest instruction) of a word of `nbits` bits whose byte k is bits
8k+7 to 8k; every bit at or above `nbits` is 0. -/
def tableBytes (nbits w : Nat) : List Byte :=
  let v := w % 2 ^ nbits
  [BitVec.ofNat 8 v, BitVec.ofNat 8 (v / 256), BitVec.ofNat 8 (v / 65536)]

/-- The instruction the decoder reads from a word numbered as spec/opcode_table.json numbers it. -/
def decodeTableWord (nbits w : Nat) : Option Instr :=
  match decode (tableBytes nbits w) with
  | .ok (i, _) => some i
  | .error _ => none

end Sys2Proof
end

