-- ==== Sys2Proof/Machine/State.lean ====
section
/-! DEFINITION. The machine state (10_state.md R20, R39), the fault records (60_exceptions.md R110, R112),
the refusals, and the state at process start (70_reset_and_hazards.md R152). -/

namespace Sys2Proof.Machine

/-- The scheduler's phase (10_state.md R38): even selects a budget of 29780, odd one of 29781. -/
inductive Phase where
  | even
  | odd
  deriving DecidableEq, Repr

/-- A fault record (60_exceptions.md R110, R112): the kind, and the address of the faulting transaction
or the opcode byte and its address. -/
inductive Fault where
  /-- The fetched opcode byte is not in the opcode table (30_encoding.md R76). Raised by the decode of
  `Machine.fetch`. The spec's own fault, so neither safe nor unsafe: it is what the hardware does. -/
  | illegalOpcode (op : Byte) (pc0 : Word)
  /-- An NROM access below 0x8000 that the bus did not intercept (20_memory.md R50, R52). Raised by
  `nromRead` and `mapperWrite`. The spec's own fault. -/
  | unsupportedAddress (addr : Word)
  /-- An access reaches the mapper and MAPPER_ID is not 0 (20_memory.md R49). Raised by `mapperRead` and
  `mapperWrite`. The spec's own fault. -/
  | unsupportedMapper (addr : Word)
  /-- An NROM read outside the PRG buffer, which happens only when PRG_BANKS is 0 (20_memory.md R51).
  Raised by `nromRead`. The spec's own fault; safe against the source, which reads past a buffer (D10). -/
  | prgOutOfRange (addr : Word)
  deriving DecidableEq, Repr

/-- Why the model gives no outcome. -/
inductive Refusal where
  /-- The instruction has no meaning in this model yet. Raised by a refused arm of `exec` alone; safe.
  No arm is refused, so nothing raises it. -/
  | notModelled (mnemonic : String)
  /-- A bus access that the bus does not intercept, made with no cartridge installed. The spec gives such
  an access no effect: a step runs only when a cartridge is installed (30_encoding.md R80), and `step`
  raises it never. Raised by `mapperRead` and `mapperWrite`; safe (log 7). -/
  | noCartridge
  deriving DecidableEq, Repr

/-- The machine state: the record of 10_state.md R20, flat, with the running call's cycle count (R39) and
the model's own counter of free values (log 3). -/
structure State where
  /-- Accumulator A (R21). -/
  a : Byte
  /-- Index register X (R22). -/
  x : Byte
  /-- Stack pointer SP (R24). -/
  sp : Byte
  /-- Status register P (R26, R27). -/
  p : Byte
  /-- Program counter PC (R25). -/
  pc : Word
  /-- The I/O register a read of 0x2002 returns (R34). -/
  ppuStatus : Byte
  /-- The I/O register a write of 0x2000 sets (R35). -/
  ppuController : Byte
  /-- The installed cartridge, or none (R36). -/
  cart : Option Cart
  /-- The frame scheduler's odd/even bit (R38). -/
  phase : Phase
  /-- None, or the recorded fault (R40). -/
  fault : Option Fault
  /-- The cycle count of the running stepFrame call (R39). -/
  cycles : Nat
  /-- The MODEL's own field, not the spec's: how many free values have been drawn (log 3). -/
  freeCount : Nat
  deriving DecidableEq, Repr

/-- The state at process start, before any load (70_reset_and_hazards.md R152), for any value of the open
parameters (00_scope.md R8). -/
def State.processStart (init : Init) : State where
  a := init.a
  x := init.x
  sp := init.sp
  p := init.p
  pc := init.pc
  ppuStatus := init.ppuStatus
  ppuController := init.ppuController
  cart := none
  phase := if init.oddPhase then .odd else .even
  fault := none
  cycles := 0
  freeCount := 0

/-- The machine right after reset, before any program is loaded: process start (R152) with the open
parameters at zero (DESIGN CHOICE, unsafe: log 1). The reset that follows a ROM load (R148) is
`Machine.resetCpu` in Load.lean. -/
def State.reset : State :=
  State.processStart Init.zero

end Sys2Proof.Machine
end

