-- ==== Sys2Proof/Machine/Ops.lean ====
section
/-! DEFINITION. The named operations: the buffers, the registers, the mapper, the bus and its
transactions, and what a fault does to the state. -/

namespace Sys2Proof

/-! ### Byte buffers -/

/-- The byte at an address of a buffer; an unlisted address holds 0x00. -/
def Memory.read : Memory → Nat → Byte
  | [], _ => 0
  | (k, b) :: m, n => if k = n then b else Memory.read m n

/-- Put a byte at an address of a buffer, keeping the canonical form. No bus transaction does this (the
PRG is read-only, 20_memory.md R52): it builds a buffer before a run. -/
def Memory.write : Memory → Nat → Byte → Memory
  | [], n, v => if v = 0 then [] else [(n, v)]
  | (k, b) :: m, n, v =>
    if n < k then (if v = 0 then (k, b) :: m else (n, v) :: (k, b) :: m)
    else if n = k then (if v = 0 then m else (n, v) :: m)
    else (k, b) :: Memory.write m n v

/-- The buffer whose bytes from address `n` on are a list's. -/
def Memory.ofBytes : Nat → List Byte → Memory
  | _, [] => []
  | n, b :: bs => if b = 0 then Memory.ofBytes (n + 1) bs else (n, b) :: Memory.ofBytes (n + 1) bs

end Sys2Proof

namespace Sys2Proof.Machine

/-- What a step, a meaning and a continuation of one answer. -/
abbrev Out := Host.Outcome State Fault Refusal

/-- Why an operation does not go on: a fault of the spec, or a refusal of the model. -/
inductive Stop where
  | fault (f : Fault)
  | refused (r : Refusal)
  deriving DecidableEq, Repr

/-- `raise` (00_scope.md R14): the step ends at once. -/
def Stop.toOutcome : Stop → Out
  | .fault f => .fault f
  | .refused r => .refused r

/-! ### Registers -/

/-- The registers of the generic form `x[r]` (00_scope.md R11). -/
inductive Reg where
  | A
  | X
  | SP
  | P
  deriving DecidableEq, Repr

/-- `x[r]` (R11). No register is hardwired, banked or windowed (10_state.md R23). -/
def State.readReg (s : State) : Reg → Byte
  | .A => s.a
  | .X => s.x
  | .SP => s.sp
  | .P => s.p

/-- `x[r] <- v` (R11). -/
def State.writeReg (s : State) (r : Reg) (v : Byte) : State :=
  match r with
  | .A => { s with a := v }
  | .X => { s with x := v }
  | .SP => { s with sp := v }
  | .P => { s with p := v }

/-- `PC <- v` (R11). -/
def State.setPc (s : State) (v : Word) : State :=
  { s with pc := v }

/-- `charge()`: one more cycle (00_scope.md R12). -/
def State.charge (s : State) : State :=
  { s with cycles := s.cycles + 1 }

/-- The state after `n` completed `FetchByte()`: PC advanced by n mod 65536 and n cycles charged (R13,
30_encoding.md R83). -/
def State.fetched (s : State) (n : Nat) : State :=
  { s with pc := s.pc + BitVec.ofNat 16 n, cycles := s.cycles + n }

/-! ### The mapper -/

/-- The PRG offset NROM gives an address, or none where it has none (20_memory.md R50): with exactly 2
banks the upper half is linear, with any other count it is the first bank again. -/
def nromOffset (banks : Byte) (addr : Word) : Option Nat :=
  if 0xC000 ≤ addr.toNat then
    some (if banks = 2 then addr.toNat - 0x8000 else addr.toNat - 0xC000)
  else if 0x8000 ≤ addr.toNat then
    some (addr.toNat - 0x8000)
  else
    none

/-- `NROMRead(addr)` (20_memory.md R50, R51). -/
def nromRead (c : Cart) (addr : Word) : Except Stop Byte :=
  match nromOffset c.prgBanks addr with
  | none => .error (.fault (.unsupportedAddress addr))
  | some off =>
    if c.prgSize ≤ off then .error (.fault (.prgOutOfRange addr)) else .ok (c.prg.read off)

/-- `MapperRead(addr)` (R49): the dispatch comes before any address test. -/
def mapperRead (s : State) (addr : Word) : Except Stop Byte :=
  match s.cart with
  | none => .error (.refused .noCartridge)
  | some c =>
    if c.mapperId = 0 then nromRead c addr else .error (.fault (.unsupportedMapper addr))

/-- `NROMWrite(addr, v)` (R52): discarded at or above 0x8000, whatever the byte. -/
def nromWrite (s : State) (addr : Word) (_v : Byte) : Except Stop State :=
  if 0x8000 ≤ addr.toNat then .ok s else .error (.fault (.unsupportedAddress addr))

/-- `MapperWrite(addr, v)` (R49). -/
def mapperWrite (s : State) (addr : Word) (v : Byte) : Except Stop State :=
  match s.cart with
  | none => .error (.refused .noCartridge)
  | some c =>
    if c.mapperId = 0 then nromWrite s addr v else .error (.fault (.unsupportedMapper addr))

/-! ### The bus -/

/-- The one address a read is intercepted at (20_memory.md R46). -/
def ppuStatusAddr : Word := 0x2002

/-- The one address a write is intercepted at (20_memory.md R47). -/
def ppuControllerAddr : Word := 0x2000

/-- `BusRead(addr)` (R46). It has no side effect (R58), so it answers a byte and no state. -/
def busRead (s : State) (addr : Word) : Except Stop Byte :=
  if addr = ppuStatusAddr then .ok s.ppuStatus else mapperRead s addr

/-- `BusWrite(addr, v)` (R47). -/
def busWrite (s : State) (addr : Word) (v : Byte) : Except Stop State :=
  if addr = ppuControllerAddr then .ok { s with ppuController := v } else mapperWrite s addr v

/-- `MemRead16(addr)`: two reads, low byte first, the second address `+16` (00_scope.md R12, 20_memory.md
R55). -/
def memRead16 (s : State) (addr : Word) : Except Stop Word :=
  match busRead s addr with
  | .error e => .error e
  | .ok lo =>
    match busRead s (addr + 1) with
    | .error e => .error e
    | .ok hi => .ok (joinWord hi lo)

/-! ### Transactions of an instruction

Each performs one bus access, charges one cycle and goes on, or ends the step with the fault of the access
(00_scope.md R12, R14). -/

/-- A data read, its byte given to what follows. -/
def withRead (s : State) (addr : Word) (k : Byte → State → Out) : Out :=
  match busRead s addr with
  | .error e => e.toOutcome
  | .ok v => k v s.charge

/-- `DummyRead(addr)`: a full read whose byte is discarded (R12, 70_reset_and_hazards.md R160). -/
def withDummyRead (s : State) (addr : Word) (k : State → Out) : Out :=
  withRead s addr fun _ s' => k s'

/-- A data write. -/
def withWrite (s : State) (addr : Word) (v : Byte) (k : State → Out) : Out :=
  match busWrite s addr v with
  | .error e => e.toOutcome
  | .ok s' => k s'.charge

/-- `FetchByte()` (R13). -/
def fetchByte (s : State) : Except Stop (Byte × State) :=
  match busRead s s.pc with
  | .error e => .error e
  | .ok b => .ok (b, s.fetched 1)

/-! ### What a fault does to the state -/

/-- The numeric code of a fault kind (60_exceptions.md R110). -/
def Fault.code : Fault → Nat
  | .illegalOpcode _ _ => 1
  | .unsupportedAddress _ => 2
  | .unsupportedMapper _ => 3
  | .prgOutOfRange _ => 4

/-- The state a faulted step leaves (60_exceptions.md R113), from the state before that step: the record
is set, `cart`, `ppuStatus` and `ppuController` stay, and A, X, SP, P and PC are free values (log 3). The
call's cycle count is discarded (R114). There is no trap entry on the CPU (R120). -/
def recordFault (f : Fault) (s : State) : State :=
  { s with
    fault := some f
    a := Config.freeByte s.freeCount
    x := Config.freeByte (s.freeCount + 1)
    sp := Config.freeByte (s.freeCount + 2)
    p := Config.freeByte (s.freeCount + 3)
    pc := Config.freeWord (s.freeCount + 4)
    freeCount := s.freeCount + 5
    cycles := 0 }

/-- The state a fault of the reset-vector read leaves (70_reset_and_hazards.md R149): the record is set
and SP and PC are free values (log 3); A, X and P are not touched by a load (R150). -/
def recordVectorFault (f : Fault) (s : State) : State :=
  { s with
    fault := some f
    sp := Config.freeByte s.freeCount
    pc := Config.freeWord (s.freeCount + 1)
    freeCount := s.freeCount + 2 }

end Sys2Proof.Machine
end

