-- ==== Sys2Proof/Machine/Flags.lean ====
section
/-! DEFINITION. The bits of P (10_state.md R27) and the N/Z flag rule (42_load_store.md R100). -/

namespace Sys2Proof.Machine

/-- The bits of P by name (10_state.md R27); U is the unused bit 5. -/
inductive Flag where
  | C
  | Z
  | I
  | D
  | B
  | U
  | V
  | N
  deriving DecidableEq, Repr

/-- The position of a flag in P (R27; I and D by the spec's decision D5). -/
def Flag.bit : Flag → Nat
  | .C => 0
  | .Z => 1
  | .I => 2
  | .D => 3
  | .B => 4
  | .U => 5
  | .V => 6
  | .N => 7

/-- A byte with one bit set to a value and every other bit as it was. -/
def withBit (v : Byte) (n : Nat) (b : Bool) : Byte :=
  if b then v ||| (1#8 <<< n) else v &&& ~~~(1#8 <<< n)

/-- `P.f`: one bit of P (00_scope.md R11). -/
def State.flag (s : State) (f : Flag) : Bool :=
  s.p.getLsbD f.bit

/-- `P.f <- b`: P is written one bit at a time (10_state.md R26). -/
def State.setFlag (s : State) (f : Flag) (b : Bool) : State :=
  s.writeReg .P (withBit (s.readReg .P) f.bit b)

/-- `UpdateNZ(r)` (42_load_store.md R100). -/
def State.updateNZ (s : State) (r : Byte) : State :=
  (s.setFlag .Z (r == 0)).setFlag .N (r.getLsbD 7)

/-- `r <- v; UpdateNZ(r)`: what the LDA/LDX family does with its result byte (R102 to R104). -/
def State.loadReg (s : State) (r : Reg) (v : Byte) : State :=
  (s.writeReg r v).updateNZ v

end Sys2Proof.Machine
end

