-- ==== Sys2Proof/Machine/Operands.lean ====
section
/-! DEFINITION. The operand forms as the machine uses them: the relative form's target and page test
(30_encoding.md R73, 40_branch.md R90). The immediate and absolute forms are the operand itself (R72, R73,
42_load_store.md R105): no extension, offset or index. -/

namespace Sys2Proof.Machine

/-- `PC +16 sext_16(rel8)`, from the PC after the offset fetch (R73, R90). -/
def branchTarget (pc2 : Word) (rel8 : Byte) : Word :=
  pc2 + sext16 rel8

/-- The target lies in the page of the PC after the offset fetch (R90). -/
def samePage (pc2 target : Word) : Bool :=
  hi8 target == hi8 pc2

/-- The old page's high byte with the new low byte: where a page-crossing branch reads (R90). -/
def halfCarriedAddr (pc2 target : Word) : Word :=
  joinWord (hi8 pc2) (lo8 target)

end Sys2Proof.Machine
end

