-- ==== Sys2Proof/Machine/Branch.lean ====
section
/-! DEFINITION. The meaning of BPL (40_branch.md R90, R91). A meaning takes the state at the instruction's
first byte (PC is pc0) and does the PC advance and the charges of the fetches itself; that those fetches
succeed is the step's concern (Machine/Fetch.lean). -/

namespace Sys2Proof.Machine

/-- BPL rel (R90): the target is committed only after every transaction has completed (R91). -/
def execBpl (rel8 : Byte) (s : State) : Out :=
  let s1 := s.fetched 2
  if s1.flag .N then
    .next s1
  else
    withDummyRead s1 s1.pc fun s2 =>
      let target := branchTarget s1.pc rel8
      if samePage s1.pc target then
        .next (s2.setPc target)
      else
        withDummyRead s2 (halfCarriedAddr s1.pc target) fun s3 =>
          .next (s3.setPc target)

end Sys2Proof.Machine
end

