-- ==== Sys2Proof/Machine/Implied.lean ====
section
/-! DEFINITION. The meanings of SEI, TXS and CLD (41_implied.md R95 to R98). -/

namespace Sys2Proof.Machine

/-- The shape of an implied instruction (R95): one dummy read at the byte after the opcode, PC not
incremented by it, then one register change. -/
def impliedThen (change : State → State) (s : State) : Out :=
  let s1 := s.fetched 1
  withDummyRead s1 s1.pc fun s2 => .next (change s2)

/-- SEI (R96): I is set; N and Z are not recomputed. -/
def execSei (s : State) : Out :=
  impliedThen (fun t => t.setFlag .I true) s

/-- TXS (R97): SP takes X; no flag changes. -/
def execTxs (s : State) : Out :=
  impliedThen (fun t => t.writeReg .SP (t.readReg .X)) s

/-- CLD (R98): D is cleared; N and Z are not recomputed. -/
def execCld (s : State) : Out :=
  impliedThen (fun t => t.setFlag .D false) s

end Sys2Proof.Machine
end

