-- ==== Sys2Proof/Machine/LoadStore.lean ====
section
/-! DEFINITION. The meanings of STA, LDX and LDA (42_load_store.md R101 to R104). -/

namespace Sys2Proof.Machine

/-- STA abs (R101): write A; no flag changes. -/
def execStaAbs (addr : Word) (s : State) : Out :=
  let s1 := s.fetched 3
  withWrite s1 addr (s1.readReg .A) fun s2 => .next s2

/-- LDX #imm (R102). -/
def execLdxImm (imm8 : Byte) (s : State) : Out :=
  .next ((s.fetched 2).loadReg .X imm8)

/-- LDA #imm (R103). -/
def execLdaImm (imm8 : Byte) (s : State) : Out :=
  .next ((s.fetched 2).loadReg .A imm8)

/-- LDA abs (R104). -/
def execLdaAbs (addr : Word) (s : State) : Out :=
  withRead (s.fetched 3) addr fun v s2 => .next (s2.loadReg .A v)

end Sys2Proof.Machine
end

