-- ==== Sys2Proof/Machine/Dispatch.lean ====
section
/-! DEFINITION. The meaning of each instruction: one arm per row of the opcode table (30_encoding.md R74). -/

namespace Sys2Proof.Machine

def exec (i : Instr) (s : State) : Host.Outcome State Fault Refusal :=
  match i with
  | .bpl rel8 => Sys2Proof.Machine.execBpl rel8 s
  | .sei => Sys2Proof.Machine.execSei s
  | .staAbs addr => Sys2Proof.Machine.execStaAbs addr s
  | .txs => Sys2Proof.Machine.execTxs s
  | .ldxImm imm8 => Sys2Proof.Machine.execLdxImm imm8 s
  | .ldaImm imm8 => Sys2Proof.Machine.execLdaImm imm8 s
  | .ldaAbs addr => Sys2Proof.Machine.execLdaAbs addr s
  | .cld => Sys2Proof.Machine.execCld s

end Sys2Proof.Machine
end

