-- ==== Sys2Proof/Machine/Fetch.lean ====
section
/-! DEFINITION. Fetching and decoding the next instruction (30_encoding.md R80, R82, R83), and placing an
instruction where the next step fetches it. -/

namespace Sys2Proof.Machine

/-- What the start of a step finds. -/
inductive Fetched where
  /-- No cartridge is installed: no step is performed and nothing changes (70_reset_and_hazards.md R155). -/
  | idle
  /-- The step ends before an instruction is known. -/
  | stop (e : Stop)
  /-- The instruction whose bytes were fetched. -/
  | instr (i : Instr)
  deriving DecidableEq, Repr

/-- The operand fetches of a format, in order, low byte of an address first (R71 to R73); 0x00 stands for
an operand byte the format does not have. -/
def fetchOperands (f : Format) (s : State) : Except Stop (Byte × Byte) :=
  match f with
  | .implied => .ok (0, 0)
  | .immediate =>
    match fetchByte s with
    | .error e => .error e
    | .ok (b1, _) => .ok (b1, 0)
  | .relative =>
    match fetchByte s with
    | .error e => .error e
    | .ok (b1, _) => .ok (b1, 0)
  | .absolute =>
    match fetchByte s with
    | .error e => .error e
    | .ok (lo, s1) =>
      match fetchByte s1 with
      | .error e => .error e
      | .ok (hi, _) => .ok (lo, hi)

/-- The opcode fetch, the decode, and the operand fetches of a running machine (R80): an opcode outside
the table faults after one fetched byte (R76, R78). -/
def fetchInstr (s : State) : Except Stop Instr :=
  match fetchByte s with
  | .error e => .error e
  | .ok (b, s1) =>
    match lookupOpcode b with
    | none => .error (.fault (.illegalOpcode b s.pc))
    | some r =>
      match fetchOperands r.format s1 with
      | .error e => .error e
      | .ok (b1, b2) => .ok (r.op.withOperands b1 b2)

/-- The start of a step. A step is performed only with a cartridge and no recorded fault (R80): without a
cartridge the machine idles (log 6), and a recorded fault is answered again (log 11, after
60_exceptions.md R115). -/
def fetch (s : State) : Fetched :=
  match s.cart with
  | none => .idle
  | some _ =>
    match s.fault with
    | some f => .stop (.fault f)
    | none =>
      match fetchInstr s with
      | .error e => .stop e
      | .ok i => .instr i

/-- The `n` bytes at an address, in increasing address order (20_memory.md R55, R57). -/
def readBytes (s : State) (addr : Word) : Nat → Except Stop (List Byte)
  | 0 => .ok []
  | n + 1 =>
    match busRead s addr with
    | .error e => .error e
    | .ok b =>
      match readBytes s (addr + 1) n with
      | .error e => .error e
      | .ok bs => .ok (b :: bs)

/-! ### Placing an instruction for the next step -/

/-- An NROM cartridge of one PRG bank of 0x00 bytes and no CHR. -/
def blankCart : Cart where
  prgBanks := 1
  chrBanks := 0
  mapperId := 0
  nes2 := false
  prg := []
  chr := none

/-- The cartridge a placed program goes into: the installed one where it is NROM with a PRG bank, else a
blank one. -/
def hostCart (s : State) : Cart :=
  match s.cart with
  | none => blankCart
  | some c => if c.mapperId = 0 ∧ c.prgBanks ≠ 0 then c else blankCart

/-- The address a placed instruction stands at: the PC where it and the three addresses after it lie in
the cartridge window, else 0x8000. -/
def hostPc (s : State) : Word :=
  if 0x8000 ≤ s.pc.toNat ∧ s.pc.toNat ≤ 0xFFFC then s.pc else 0x8000

/-- Put bytes at consecutive bus addresses of an NROM cartridge. -/
def placeBytes : Cart → Word → List Byte → Cart
  | c, _, [] => c
  | c, addr, b :: bs =>
    match nromOffset c.prgBanks addr with
    | none => placeBytes c (addr + 1) bs
    | some off => placeBytes { c with prg := c.prg.write off b } (addr + 1) bs

/-- The machine with bytes stored where the next step fetches: a cartridge is installed, no fault is
recorded and PC points at the bytes (log 8: it stands for a ROM load). -/
def placeInstr (bytes : List Byte) (s : State) : State :=
  { s with
    cart := some (placeBytes (hostCart s) (hostPc s) bytes)
    pc := hostPc s
    fault := none }

end Sys2Proof.Machine
end

