-- ==== Sys2Proof/Machine/Step.lean ====
section
/-! DEFINITION. One step (30_encoding.md R80): fetch and decode (Machine/Fetch.lean), then the meaning. -/

namespace Sys2Proof.Machine

/-- `Step()` (R80). -/
def step (s : State) : Host.Outcome State Fault Refusal :=
  match fetch s with
  | .idle => .next s
  | .stop e => e.toOutcome
  | .instr i => exec i s

/-- The state with the instruction of a table word stored where `step` fetches its next instruction. -/
def State.withFetchWord (s : State) (nbits w : Nat) : State :=
  placeInstr (tableBytes nbits w) s

end Sys2Proof.Machine
end

