-- ==== Sys2Proof/Machine/Asm.lean ====
section
/-! DEFINITION. The assembler's lines (30_encoding.md R84, R85; 92_eei_decisions.md D21): what a line encodes,
the line of an instruction, its text, and reading a text. Text is a list of characters. It has no effect on
the machine. The layout choices R84 leaves open are log 9. -/

namespace Sys2Proof.Machine

/-- The instruction a line at `pc0` encodes, or none where its branch target is out of reach (R84). -/
def assemble (pc0 : Word) (line : Asm) : Option Instr :=
  if line.wellFormed pc0 then
    match line with
    | .bpl target => some (.bpl (lo8 (branchDistance pc0 target)))
    | .sei => some .sei
    | .sta addr => some (.staAbs addr)
    | .txs => some .txs
    | .ldxImm imm8 => some (.ldxImm imm8)
    | .ldaImm imm8 => some (.ldaImm imm8)
    | .ldaAbs addr => some (.ldaAbs addr)
    | .cld => some .cld
  else
    none

/-- The line of an instruction at `pc0`: a branch names its target (R84). -/
def disassemble (pc0 : Word) : Instr → Asm
  | .bpl rel8 => .bpl (branchTarget (pc0 + 2) rel8)
  | .sei => .sei
  | .staAbs addr => .sta addr
  | .txs => .txs
  | .ldxImm imm8 => .ldxImm imm8
  | .ldaImm imm8 => .ldaImm imm8
  | .ldaAbs addr => .ldaAbs addr
  | .cld => .cld

/-! ### Text -/

/-- The sixteen hexadecimal digits. -/
def hexDigits : List Char :=
  ['0', '1', '2', '3', '4', '5', '6', '7', '8', '9', 'A', 'B', 'C', 'D', 'E', 'F']

/-- The digit of a number below 16. -/
def hexDigit (n : Nat) : Char :=
  hexDigits.getD n '?'

/-- `hh`: two digits. -/
def hexByte (v : Byte) : List Char :=
  [hexDigit (v.toNat / 16), hexDigit (v.toNat % 16)]

/-- `hhhh`: four digits. -/
def hexWord (v : Word) : List Char :=
  hexByte (hi8 v) ++ hexByte (lo8 v)

/-- The text of a line (R84): `$` for hexadecimal, `#` for an immediate. -/
def renderAsm : Asm → List Char
  | .bpl target => ['B', 'P', 'L', ' ', '$'] ++ hexWord target
  | .sei => ['S', 'E', 'I']
  | .sta addr => ['S', 'T', 'A', ' ', '$'] ++ hexWord addr
  | .txs => ['T', 'X', 'S']
  | .ldxImm imm8 => ['L', 'D', 'X', ' ', '#', '$'] ++ hexByte imm8
  | .ldaImm imm8 => ['L', 'D', 'A', ' ', '#', '$'] ++ hexByte imm8
  | .ldaAbs addr => ['L', 'D', 'A', ' ', '$'] ++ hexWord addr
  | .cld => ['C', 'L', 'D']

/-- Bytes in hexadecimal, one space after each. -/
def renderBytes : List Byte → List Char
  | [] => []
  | b :: bs => hexByte b ++ [' '] ++ renderBytes bs

/-- A listing line: `hhhh: bb bb bb  MNEMONIC operand` (R84). -/
def listingLine (pc0 : Word) (i : Instr) : List Char :=
  hexWord pc0 ++ [':', ' '] ++ renderBytes (encode i) ++ [' '] ++ renderAsm (disassemble pc0 i)

/-- The place of a character in a list, counted from `n`. -/
def charPlace : List Char → Nat → Char → Option Nat
  | [], _, _ => none
  | d :: ds, n, c => if d = c then some n else charPlace ds (n + 1) c

/-- The value of one digit below a base. -/
def digitValue (base : Nat) (c : Char) : Option Nat :=
  match charPlace hexDigits 0 c with
  | none => none
  | some v => if v < base then some v else none

/-- The value of digits in a base, after the digits already read. -/
def readDigits (base : Nat) : Nat → List Char → Option Nat
  | acc, [] => some acc
  | acc, c :: cs =>
    match digitValue base c with
    | none => none
    | some v => readDigits base (acc * base + v) cs

/-- Exactly `n` hexadecimal digits after `$` or `0x`. -/
def readHex (n : Nat) : List Char → Option Nat
  | '$' :: cs => if cs.length = n then readDigits 16 0 cs else none
  | '0' :: 'x' :: cs => if cs.length = n then readDigits 16 0 cs else none
  | _ => none

/-- A byte: `$hh`, `0xhh` or decimal (R84). -/
def readByteText (cs : List Char) : Option Byte :=
  match readHex 2 cs with
  | some v => some (BitVec.ofNat 8 v)
  | none =>
    match cs with
    | [] => none
    | _ =>
      match readDigits 10 0 cs with
      | none => none
      | some v => if v < 256 then some (BitVec.ofNat 8 v) else none

/-- A 16-bit address: `$hhhh` or `0xhhhh` (R84). -/
def readWordText (cs : List Char) : Option Word :=
  (readHex 4 cs).map fun v => BitVec.ofNat 16 v

/-- The address of a label. -/
def lookupLabel : List (List Char × Word) → List Char → Option Word
  | [], _ => none
  | (name, addr) :: more, cs => if name = cs then some addr else lookupLabel more cs

/-- A branch target: a label or an absolute target (R84). -/
def readTarget (labels : List (List Char × Word)) (cs : List Char) : Option Word :=
  match lookupLabel labels cs with
  | some addr => some addr
  | none => readWordText cs

/-- The line a text stands for, with the addresses of the labels it may name (R84). -/
def parseAsm (labels : List (List Char × Word)) : List Char → Option Asm
  | ['S', 'E', 'I'] => some .sei
  | ['T', 'X', 'S'] => some .txs
  | ['C', 'L', 'D'] => some .cld
  | 'L' :: 'D' :: 'A' :: ' ' :: '#' :: cs => (readByteText cs).map .ldaImm
  | 'L' :: 'D' :: 'X' :: ' ' :: '#' :: cs => (readByteText cs).map .ldxImm
  | 'L' :: 'D' :: 'A' :: ' ' :: cs => (readWordText cs).map .ldaAbs
  | 'S' :: 'T' :: 'A' :: ' ' :: cs => (readWordText cs).map .sta
  | 'B' :: 'P' :: 'L' :: ' ' :: cs => (readTarget labels cs).map .bpl
  | _ => none

end Sys2Proof.Machine
end

