-- ==== Sys2Proof/Machine/Frame.lean ====
section
/-! DEFINITION. The frame scheduler (70_reset_and_hazards.md R155 to R157). -/

namespace Sys2Proof.Machine

/-- What `stepFrame` returns (60_exceptions.md R128). -/
inductive FrameResult where
  | success
  | fault (f : Fault)
  /-- A step was refused. It never happens: no step is refused (Obligations.StepIsNeverRefused). -/
  | refused (r : Refusal)
  deriving DecidableEq, Repr

/-- The other phase (R38). -/
def Phase.toggle : Phase → Phase
  | .even => .odd
  | .odd => .even

/-- The cycle budget of a phase (R156). -/
def frameBudget : Phase → Nat
  | .even => 29780
  | .odd => 29781

/-- The loop of `stepFrame` (R155): steps until the call's cycles reach the budget, or a fault. Each step
charges at least two cycles, so a fuel of the budget is never used up. -/
def runFrame : Nat → Nat → State → FrameResult × State
  | 0, _, s => (.success, s)
  | fuel + 1, budget, s =>
    if s.cycles < budget then
      match step s with
      | .next s' => runFrame fuel budget s'
      | .fault f => (.fault f, recordFault f s)
      | .refused r => (.refused r, s)
    else
      (.success, s)

/-- The state a `stepFrame` call starts its loop in: phase toggled, cycles at 0 (R155, R157). -/
def State.beginFrame (s : State) : State :=
  { s with phase := s.phase.toggle, cycles := 0 }

/-- The state a `stepFrame` call leaves: its cycle count does not survive it (10_state.md R39, R157). -/
def State.endFrame (s : State) : State :=
  { s with cycles := 0 }

/-- `stepFrame()` (R155). With no cartridge it is a no-op (D16); with a recorded fault it toggles the
phase, runs no step and returns the fault (D17). -/
def stepFrame (s : State) : FrameResult × State :=
  match s.cart with
  | none => (.success, s)
  | some _ =>
    match s.fault with
    | some f => (.fault f, s.beginFrame)
    | none =>
      let r := runFrame (frameBudget s.phase) (frameBudget s.phase) s.beginFrame
      (r.1, r.2.endFrame)

end Sys2Proof.Machine
end

