-- ==== Sys2Proof/Machine/Load.lean ====
section
/-! DEFINITION. The ROM loader and the reset it ends with (70_reset_and_hazards.md R140 to R151). -/

namespace Sys2Proof.Machine

/-- What `loadROM` returns (60_exceptions.md R116, R128). The NES 2.0 warning is no failure: it is the new
cartridge's `nes2` (R145). -/
inductive LoadResult where
  | success
  | badMagic
  | imageTooShort
  | vectorFault (f : Fault)
  /-- The reset-vector read was refused. It never happens: a cartridge is installed before it (R147). -/
  | refused (r : Refusal)
  deriving DecidableEq, Repr

/-- The numeric code of a load result that is a failure (60_exceptions.md R110). -/
def LoadResult.code : LoadResult → Option Nat
  | .success => none
  | .badMagic => some 16
  | .imageTooShort => some 17
  | .vectorFault f => some f.code
  | .refused _ => none

/-- Byte k of an image. -/
def imageByte (image : List Byte) (k : Nat) : Byte :=
  image.getD k 0

/-- `4E 45 53 1A`, bytes 0 to 3 of an iNES image (R141, R142). -/
def inesMagic : List Byte :=
  [0x4E, 0x45, 0x53, 0x1A]

/-- PRG_BANKS, byte 4 (R143). -/
def headerPrgBanks (image : List Byte) : Byte :=
  imageByte image 4

/-- CHR_BANKS, byte 5 (R143). -/
def headerChrBanks (image : List Byte) : Byte :=
  imageByte image 5

/-- MAPPER_ID: the high nibbles of bytes 6 and 7 (R144). -/
def headerMapperId (image : List Byte) : Byte :=
  (imageByte image 6 >>> 4) ||| (imageByte image 7 &&& 0xF0)

/-- NES2: bits 3 and 2 of byte 7 are 10 (R145). -/
def headerNes2 (image : List Byte) : Bool :=
  (imageByte image 7 &&& 0x0C) == 0x08

/-- The bytes of PRG data the header declares (R146). -/
def declaredPrg (image : List Byte) : Nat :=
  (headerPrgBanks image).toNat * 16384

/-- The bytes of CHR data the header declares (R146). -/
def declaredChr (image : List Byte) : Nat :=
  (headerChrBanks image).toNat * 8192

/-- `need`: the least length of an image with this header (R140). -/
def imageNeed (image : List Byte) : Nat :=
  16 + declaredPrg image + declaredChr image

/-- The cartridge of an image (R140, R143 to R146): PRG at offset 16, CHR right after it. -/
def cartOf (image : List Byte) : Cart where
  prgBanks := headerPrgBanks image
  chrBanks := headerChrBanks image
  mapperId := headerMapperId image
  nes2 := headerNes2 image
  prg := Memory.ofBytes 0 ((image.drop 16).take (declaredPrg image))
  chr :=
    if headerChrBanks image = 0 then none
    else some (Memory.ofBytes 0 ((image.drop (16 + declaredPrg image)).take (declaredChr image)))

/-- The low address of the reset vector (R148). -/
def resetVector : Word := 0xFFFC

/-- SP after a reset (R148). -/
def resetSp : Byte := 0xFD

/-- `Reset()` (R148): the phase first, then the vector through the bus, uncharged, then SP, PC and the
recorded fault; R149 where the vector read faults. -/
def resetCpu (s : State) : LoadResult × State :=
  let s1 := { s with phase := Phase.even }
  match memRead16 s1 resetVector with
  | .error (.fault f) => (.vectorFault f, recordVectorFault f s1)
  | .error (.refused r) => (.refused r, s1)
  | .ok v => (.success, { s1 with sp := resetSp, pc := v, fault := none })

/-- `loadROM(image)` (R140): every return before the cartridge is installed leaves the whole state as it
was (60_exceptions.md R116). -/
def loadROM (image : List Byte) (s : State) : LoadResult × State :=
  if image.length < 16 then
    (.imageTooShort, s)
  else if image.take 4 ≠ inesMagic then
    (.badMagic, s)
  else if image.length < imageNeed image then
    (.imageTooShort, s)
  else
    resetCpu { s with cart := some (cartOf image) }

end Sys2Proof.Machine
end

