-- ==== Sys2Proof/Machine/Environment.lean ====
section
/-! DEFINITION. The host interface: exactly three interactions (60_exceptions.md R128, R129), one at a time
(R130), and a run's observation (70_reset_and_hazards.md R158). -/

namespace Sys2Proof.Machine

/-- The host sets `ppuStatus` between calls (R129). -/
def setPpuStatus (v : Byte) (s : State) : State :=
  { s with ppuStatus := v }

/-- What the host can do (R128). -/
inductive HostMove where
  | loadROM (image : List Byte)
  | stepFrame
  | setPpuStatus (v : Byte)
  deriving DecidableEq, Repr

/-- What the host gets back (R128). -/
inductive HostReply where
  | load (r : LoadResult)
  | frame (r : FrameResult)
  | nothing
  deriving DecidableEq, Repr

/-- One interaction. -/
def hostMove (m : HostMove) (s : State) : HostReply × State :=
  match m with
  | .loadROM image => (.load (loadROM image s).1, (loadROM image s).2)
  | .stepFrame => (.frame (stepFrame s).1, (stepFrame s).2)
  | .setPpuStatus v => (.nothing, setPpuStatus v s)

/-- The state after a sequence of interactions. -/
def afterMoves : List HostMove → State → State
  | [], s => s
  | m :: ms, s => afterMoves ms (hostMove m s).2

/-- A run's observation: each reply with the state after its call (R158). -/
def observe : List HostMove → State → List (HostReply × State)
  | [], _ => []
  | m :: ms, s => hostMove m s :: observe ms (hostMove m s).2

/-- `n` calls of `stepFrame` with nothing between them. -/
def frames : Nat → State → State
  | 0, s => s
  | n + 1, s => frames n (stepFrame s).2

end Sys2Proof.Machine
end

