-- ==== Sys2Proof/Machine/Timing.lean ====
section
/-! DEFINITION. The bus transactions of each instruction, in order (70_reset_and_hazards.md R154), and what
performing a list of them does. The cycle count of a step is the length of its list (30_encoding.md R81). -/

namespace Sys2Proof.Machine

/-- A bus transaction (00_scope.md R17): R, W or D of R154's table. -/
inductive Transaction where
  | read (addr : Word)
  | write (addr : Word) (v : Byte)
  | dummyRead (addr : Word)
  deriving DecidableEq, Repr

/-- The reads of `n` consecutive bytes. -/
def fetchTransactions (addr : Word) : Nat → List Transaction
  | 0 => []
  | n + 1 => .read addr :: fetchTransactions (addr + 1) n

/-- The transactions an instruction performs after its fetches (R154), from the state at its first byte. -/
def dataTransactions (i : Instr) (s : State) : List Transaction :=
  match i with
  | .bpl rel8 =>
    if s.flag .N then
      []
    else if samePage (s.pc + 2) (branchTarget (s.pc + 2) rel8) then
      [.dummyRead (s.pc + 2)]
    else
      [.dummyRead (s.pc + 2),
        .dummyRead (halfCarriedAddr (s.pc + 2) (branchTarget (s.pc + 2) rel8))]
  | .sei => [.dummyRead (s.pc + 1)]
  | .staAbs addr => [.write addr s.a]
  | .txs => [.dummyRead (s.pc + 1)]
  | .ldxImm _ => []
  | .ldaImm _ => []
  | .ldaAbs addr => [.read addr]
  | .cld => [.dummyRead (s.pc + 1)]

/-- The transactions of a step that runs the instruction (R154). -/
def transactions (i : Instr) (s : State) : List Transaction :=
  fetchTransactions s.pc i.length ++ dataTransactions i s

/-- Perform one transaction and charge its cycle (00_scope.md R12). -/
def Transaction.perform (t : Transaction) (s : State) : Except Stop State :=
  match t with
  | .read addr => (busRead s addr).map fun _ => s.charge
  | .write addr v => (busWrite s addr v).map fun s' => s'.charge
  | .dummyRead addr => (busRead s addr).map fun _ => s.charge

/-- Perform transactions in order; the first that faults ends the list (60_exceptions.md R119). -/
def performAll : List Transaction → State → Except Stop State
  | [], s => .ok s
  | t :: ts, s =>
    match t.perform s with
    | .error e => .error e
    | .ok s' => performAll ts s'

end Sys2Proof.Machine
end

