-- ==== Sys2Proof/Safety.lean ====
section
/-! DEFINITION. The terms claims are stated in: when a step is performed, the invariant of the machine, what
a frame leaves alone, and what no program can observe. -/

namespace Sys2Proof.Machine

/-- A step is performed: a cartridge is installed and no fault is recorded (30_encoding.md R80). -/
abbrev Running (s : State) : Prop :=
  s.cart ≠ none ∧ s.fault = none

/-- The installed cartridge is `c`. -/
abbrev HasCart (s : State) (c : Cart) : Prop :=
  s.cart = some c

/-- The installed cartridge is `c` and its mapper is NROM (20_memory.md R49). -/
abbrev HasNrom (s : State) (c : Cart) : Prop :=
  s.cart = some c ∧ c.mapperId = 0

/-! ### The invariant -/

/-- The cause of a recorded fault holds of the installed cartridge (60_exceptions.md R110, R111): a kind the
cartridge cannot raise is not recorded. -/
def faultHasCause (c : Cart) : Fault → Bool
  | .illegalOpcode op _ => (lookupOpcode op).isNone
  | .unsupportedAddress addr => (c.mapperId == 0) && decide (addr.toNat < 0x8000)
  | .unsupportedMapper _ => c.mapperId != 0
  | .prgOutOfRange addr =>
    (c.mapperId == 0) && (c.prgBanks == 0) && decide (0x8000 ≤ addr.toNat)

/-- A machine that can run has an NROM cartridge with at least one PRG bank (70_reset_and_hazards.md R149,
R153): any other cartridge leaves a fault recorded by its load. -/
def canRunCart (c : Cart) : Bool :=
  (c.mapperId == 0) && (c.prgBanks != 0)

/-- The invariant of the machine: the cartridge agrees with its bank counts and its buffers are canonical
(10_state.md R36); without a cartridge no fault is recorded (70_reset_and_hazards.md R152); a recorded fault
has its cause in the cartridge; and a machine with no recorded fault has a cartridge that can run. -/
def State.inv (s : State) : Bool :=
  match s.cart, s.fault with
  | none, f => f.isNone
  | some c, none => c.wellFormed && canRunCart c
  | some c, some f => c.wellFormed && faultHasCause c f

/-- The invariant between host calls: the machine's, and no cycle count of a call is left (10_state.md
R39). -/
def State.hostInv (s : State) : Bool :=
  s.inv && (s.cycles == 0)

/-! ### Frames of instructions -/

/-- Every byte reads as before, at every address of the bus. -/
def SameBytes (s t : State) : Prop :=
  ∀ addr : Word, busRead t addr = busRead s addr

/-- Every flag of P outside a list is as before. -/
def FlagsSameBut (written : List Flag) (s t : State) : Prop :=
  ∀ f : Flag, f ∉ written → t.flag f = s.flag f

/-- What no instruction changes: the cartridge, the phase, the recorded fault, `ppuStatus`, the model's
free-value counter, and every byte the bus can read. -/
def SameOutside (s t : State) : Prop :=
  t.cart = s.cart ∧ t.phase = s.phase ∧ t.fault = s.fault ∧ t.ppuStatus = s.ppuStatus ∧
    t.freeCount = s.freeCount ∧ SameBytes s t

/-- What a branch leaves alone: all but PC and the cycle count. -/
def OnlyPcMoves (s t : State) : Prop :=
  t.a = s.a ∧ t.x = s.x ∧ t.sp = s.sp ∧ FlagsSameBut [] s t ∧
    t.ppuController = s.ppuController ∧ SameOutside s t

/-! ### What no program can observe -/

end Sys2Proof.Machine

namespace Sys2Proof

/-- A cartridge without what no bus transaction reaches: CHR, its bank count, and NES2 (20_memory.md R67,
70_reset_and_hazards.md R145). -/
def Cart.visible (c : Cart) : Cart :=
  { c with chrBanks := 0, nes2 := false, chr := none }

end Sys2Proof

namespace Sys2Proof.Machine

/-- A state without what no instruction reads: SP, the bits of P other than N, `ppuController`, and the
cartridge's CHR side (10_state.md R24, R28 to R35). -/
def State.visible (s : State) : State :=
  { s with
    sp := 0
    p := withBit 0 7 (s.flag .N)
    ppuController := 0
    cart := s.cart.map Cart.visible }

/-- What an outcome shows: the visible part of a next state, or the fault or refusal. -/
def visibleOutcome : Out → Out
  | .next t => .next t.visible
  | .fault f => .fault f
  | .refused r => .refused r

/-! ### Host moves -/

/-- An image the header checks of a load accept (70_reset_and_hazards.md R140): long enough for a header, the
magic bytes, and long enough for the data the header declares. -/
def acceptedImage (image : List Byte) : Prop :=
  16 ≤ image.length ∧ image.take 4 = [0x4E, 0x45, 0x53, 0x1A] ∧
    16 + (image.getD 4 0).toNat * 16384 + (image.getD 5 0).toNat * 8192 ≤ image.length

/-- The move is no ROM load. -/
def HostMove.noLoad : HostMove → Bool
  | .loadROM _ => false
  | .stepFrame => true
  | .setPpuStatus _ => true

end Sys2Proof.Machine
end

