-- ==== Sys2Proof/Certificates/Slice0/Obligations.lean ====
section
/-! DEFINITION. The statements for the provers, from the numbered rules of spec/. "Modulo 65536" PC sums are
the spec's R10 (decisions D2, D3); a bus access that answers `.error e` ends a step with `e` (R14). -/

open Sys2Proof Sys2Proof.Machine

/-! ### Encoding -/

/-- The eight rows of R74, each with operand bytes written out by hand from R71, decode to their
instructions, and a byte outside the table decodes to none. -/
def Obligations.SpecWordsDecode : Prop :=
  decode [0x10, 0xFB] = .ok (.bpl 0xFB, []) ∧
  decode [0x78] = .ok (.sei, []) ∧
  decode [0x8D, 0x00, 0x20] = .ok (.staAbs 0x2000, []) ∧
  decode [0x9A] = .ok (.txs, []) ∧
  decode [0xA2, 0xFF] = .ok (.ldxImm 0xFF, []) ∧
  decode [0xA9, 0x05] = .ok (.ldaImm 0x05, []) ∧
  decode [0xAD, 0x02, 0x20] = .ok (.ldaAbs 0x2002, []) ∧
  decode [0xD8, 0xEA] = .ok (.cld, [0xEA]) ∧
  decode [0xEA] = .error (.illegalOpcode 0xEA)

/-- Decoding an encoded instruction gives it back, whatever bytes follow, for every instruction and every
operand value. -/
def Obligations.DecodeOfEncode : Prop :=
  ∀ (i : Instr) (rest : List Byte), decode (encode i ++ rest) = .ok (i, rest)

/-- What decodes is the encoding of what it decodes to, followed by the rest: each instruction has one
encoding. -/
def Obligations.EncodeOfDecode : Prop :=
  ∀ (bytes : List Byte) (i : Instr) (rest : List Byte),
    decode bytes = .ok (i, rest) → bytes = encode i ++ rest

/-- R78: the opcode byte alone gives the length, 1 for Implied, 2 for Immediate and Relative, 3 for Absolute;
every byte outside the table's eight has none, and its step faults after one fetched byte, whatever the next byte
would do. -/
def Obligations.OpcodeAloneGivesLength : Prop :=
  (∀ (b : Byte) (rest more : List Byte) (i : Instr), decode (b :: rest) = .ok (i, more) →
    opcodeLength b = some i.length ∧ (b :: rest).length = i.length + more.length) ∧
  (∀ i : Instr, i.length =
    match i.row.format with
    | .implied => 1
    | .immediate => 2
    | .relative => 2
    | .absolute => 3) ∧
  (∀ b : Byte, b ∉ ([0x10, 0x78, 0x8D, 0x9A, 0xA2, 0xA9, 0xAD, 0xD8] : List Byte) → opcodeLength b = none) ∧
  (∀ (s : State) (b : Byte), Running s → busRead s s.pc = .ok b → opcodeLength b = none →
    step s = .fault (.illegalOpcode b s.pc))

/-- R76: every opcode byte but the eight is illegal, and a step that fetches one raises IllegalOpcode, with
the byte and its address as R80 writes them. -/
def Obligations.IllegalOpcodeFaults : Prop :=
  ∀ (s : State) (b : Byte), Running s → busRead s s.pc = .ok b →
    b ∉ ([0x10, 0x78, 0x8D, 0x9A, 0xA2, 0xA9, 0xAD, 0xD8] : List Byte) →
    step s = .fault (.illegalOpcode b s.pc)

/-! ### The step -/

/-- A step runs the instruction the bytes at PC decode to, and adds nothing around its meaning: the meaning
itself moves PC past the instruction and charges its fetches. -/
def Obligations.StepRunsDecodedInstruction : Prop :=
  ∀ (s : State) (n : Nat) (bytes rest : List Byte) (i : Instr), Running s →
    readBytes s s.pc n = .ok bytes → decode bytes = .ok (i, rest) → step s = exec i s

/-- The first fetch that faults ends the step with its fault: the opcode's, then each operand byte's in
address order. -/
def Obligations.FirstFaultingFetchEndsStep : Prop :=
  ∀ (s : State) (e : Stop), Running s →
    (busRead s s.pc = .error e → step s = e.toOutcome) ∧
    (∀ (op n : _), busRead s s.pc = .ok op → opcodeLength op = some n →
      (2 ≤ n → busRead s (s.pc + 1) = .error e → step s = e.toOutcome) ∧
      (∀ lo, 3 ≤ n → busRead s (s.pc + 1) = .ok lo → busRead s (s.pc + 2) = .error e →
        step s = e.toOutcome))

/-- Where R80 performs no step, `step` answers by the model's own choices: without a cartridge nothing changes
(log 6, after the no-op of R155), and with a recorded fault the answer is that fault (log 11, after what R115 says of
`stepFrame`). -/
def Obligations.NoStepWithoutCartridgeOrAfterFault : Prop :=
  ∀ s : State, (s.cart = none → step s = .next s) ∧
    (∀ f : Fault, s.cart ≠ none → s.fault = some f → step s = .fault f)

/-! ### Loads and stores -/

/-- R103: LDA # loads A with the operand byte, recomputes N and Z from it and nothing else, in 2 cycles; a
faulting operand fetch ends the step. -/
def Obligations.LdaImmediateLoadsA : Prop :=
  ∀ (imm8 : Byte) (s : State),
    encode (.ldaImm imm8) = [0xA9, imm8] ∧
    (∃ t, exec (.ldaImm imm8) s = .next t ∧ t.a = imm8 ∧ t.pc = s.pc + 2 ∧ t.cycles = s.cycles + 2 ∧
      t.flag .Z = (imm8 == 0) ∧ t.flag .N = imm8.getLsbD 7 ∧ FlagsSameBut [.N, .Z] s t ∧
      t.x = s.x ∧ t.sp = s.sp ∧ t.ppuController = s.ppuController ∧ SameOutside s t) ∧
    (∀ e : Stop, Running s → busRead s s.pc = .ok 0xA9 → busRead s (s.pc + 1) = .error e →
      step s = e.toOutcome)

/-- R102: LDX # loads X with the operand byte, recomputes N and Z from it and nothing else, in 2 cycles; a
faulting operand fetch ends the step. -/
def Obligations.LdxImmediateLoadsX : Prop :=
  ∀ (imm8 : Byte) (s : State),
    encode (.ldxImm imm8) = [0xA2, imm8] ∧
    (∃ t, exec (.ldxImm imm8) s = .next t ∧ t.x = imm8 ∧ t.pc = s.pc + 2 ∧ t.cycles = s.cycles + 2 ∧
      t.flag .Z = (imm8 == 0) ∧ t.flag .N = imm8.getLsbD 7 ∧ FlagsSameBut [.N, .Z] s t ∧
      t.a = s.a ∧ t.sp = s.sp ∧ t.ppuController = s.ppuController ∧ SameOutside s t) ∧
    (∀ e : Stop, Running s → busRead s s.pc = .ok 0xA2 → busRead s (s.pc + 1) = .error e →
      step s = e.toOutcome)

/-- LDA abs (R104) loads A with the byte at the address, recomputes N and Z from it, in 4 cycles, where that
byte can be read; otherwise the read's fault ends it. -/
def Obligations.LdaAbsoluteLoadsA : Prop :=
  ∀ (addr : Word) (s : State),
    (∀ v, busRead s addr = .ok v →
      ∃ t, exec (.ldaAbs addr) s = .next t ∧ t.a = v ∧ t.pc = s.pc + 3 ∧ t.cycles = s.cycles + 4 ∧
        t.flag .Z = (v == 0) ∧ t.flag .N = v.getLsbD 7 ∧ FlagsSameBut [.N, .Z] s t ∧
        t.x = s.x ∧ t.sp = s.sp ∧ t.ppuController = s.ppuController ∧ SameOutside s t) ∧
    (∀ e, busRead s addr = .error e → exec (.ldaAbs addr) s = e.toOutcome)

/-- R101: STA abs writes A to the address in 4 cycles and changes no flag: at 0x2000 it sets `ppuController`
under any mapper, at or above 0x8000 under NROM the write is discarded, and every byte of the bus reads as
before; anywhere else it faults, and a faulting operand fetch ends the step before the write. -/
def Obligations.StaAbsoluteWritesA : Prop :=
  ∀ (addr : Word) (s : State),
    encode (.staAbs addr) = [0x8D, lo8 addr, hi8 addr] ∧
    (addr = 0x2000 ∨ ((∃ c, HasNrom s c) ∧ 0x8000 ≤ addr.toNat) →
      ∃ t, exec (.staAbs addr) s = .next t ∧ t.pc = s.pc + 3 ∧ t.cycles = s.cycles + 4 ∧
        t.ppuController = (if addr = 0x2000 then s.a else s.ppuController) ∧
        t.a = s.a ∧ t.x = s.x ∧ t.sp = s.sp ∧ FlagsSameBut [] s t ∧ SameOutside s t) ∧
    (∀ c, HasNrom s c → addr ≠ 0x2000 → addr.toNat < 0x8000 →
      exec (.staAbs addr) s = .fault (.unsupportedAddress addr)) ∧
    (∀ c, HasCart s c → c.mapperId ≠ 0 → addr ≠ 0x2000 →
      exec (.staAbs addr) s = .fault (.unsupportedMapper addr)) ∧
    (∀ e : Stop, Running s → busRead s s.pc = .ok 0x8D →
      (busRead s (s.pc + 1) = .error e → step s = e.toOutcome) ∧
      (∀ lo, busRead s (s.pc + 1) = .ok lo → busRead s (s.pc + 2) = .error e →
        step s = e.toOutcome))

/-! ### Implied instructions -/

/-- SEI (R96) sets I and nothing else of P, in 2 cycles, where the byte after the opcode can be read; the
dummy read's fault ends it. The dummy read's address is the spec's decision D4, I's place its decision D5. -/
def Obligations.SeiSetsInterruptDisable : Prop :=
  ∀ s : State,
    (∀ v, busRead s (s.pc + 1) = .ok v →
      ∃ t, exec .sei s = .next t ∧ t.flag .I = true ∧ FlagsSameBut [.I] s t ∧
        t.pc = s.pc + 1 ∧ t.cycles = s.cycles + 2 ∧
        t.a = s.a ∧ t.x = s.x ∧ t.sp = s.sp ∧ t.ppuController = s.ppuController ∧ SameOutside s t) ∧
    (∀ e, busRead s (s.pc + 1) = .error e → exec .sei s = e.toOutcome)

/-- TXS (R97) copies X into SP and changes no flag, in 2 cycles, where the byte after the opcode can be read;
the dummy read's fault ends it. The dummy read's address is the spec's decision D4. -/
def Obligations.TxsCopiesXToSp : Prop :=
  ∀ s : State,
    (∀ v, busRead s (s.pc + 1) = .ok v →
      ∃ t, exec .txs s = .next t ∧ t.sp = s.x ∧ FlagsSameBut [] s t ∧
        t.pc = s.pc + 1 ∧ t.cycles = s.cycles + 2 ∧
        t.a = s.a ∧ t.x = s.x ∧ t.ppuController = s.ppuController ∧ SameOutside s t) ∧
    (∀ e, busRead s (s.pc + 1) = .error e → exec .txs s = e.toOutcome)

/-- CLD (R98) clears D and nothing else of P, in 2 cycles, where the byte after the opcode can be read; the
dummy read's fault ends it. The dummy read's address is the spec's decision D4, D's place its decision D5. -/
def Obligations.CldClearsDecimal : Prop :=
  ∀ s : State,
    (∀ v, busRead s (s.pc + 1) = .ok v →
      ∃ t, exec .cld s = .next t ∧ t.flag .D = false ∧ FlagsSameBut [.D] s t ∧
        t.pc = s.pc + 1 ∧ t.cycles = s.cycles + 2 ∧
        t.a = s.a ∧ t.x = s.x ∧ t.sp = s.sp ∧ t.ppuController = s.ppuController ∧ SameOutside s t) ∧
    (∀ e, busRead s (s.pc + 1) = .error e → exec .cld s = e.toOutcome)

/-! ### The branch -/

/-- BPL with N set (R90) is not taken: PC moves past it in 2 cycles, whatever
the bus would answer to a further access. -/
def Obligations.BplNotTakenWhenNegative : Prop :=
  ∀ (rel8 : Byte) (s : State), s.flag .N = true →
    ∃ t, exec (.bpl rel8) s = .next t ∧ t.pc = s.pc + 2 ∧ t.cycles = s.cycles + 2 ∧ OnlyPcMoves s t

/-- BPL with N clear and its target in the page of the byte after it (R90, decisions D3, D27): PC is the
target in 3 cycles, where that byte can be read. -/
def Obligations.BplTakenInPage : Prop :=
  ∀ (rel8 : Byte) (s : State) (v : Byte), s.flag .N = false → busRead s (s.pc + 2) = .ok v →
    hi8 (s.pc + 2 + sext16 rel8) = hi8 (s.pc + 2) →
    ∃ t, exec (.bpl rel8) s = .next t ∧ t.pc = s.pc + 2 + sext16 rel8 ∧ t.cycles = s.cycles + 3 ∧
      OnlyPcMoves s t

/-- BPL with N clear and its target in another page (R90, decisions D3, D27): PC is the target in 4 cycles,
where the byte after it and the byte at the old page's high byte with the target's low byte can be read. -/
def Obligations.BplTakenAcrossPages : Prop :=
  ∀ (rel8 : Byte) (s : State) (v w : Byte), s.flag .N = false → busRead s (s.pc + 2) = .ok v →
    hi8 (s.pc + 2 + sext16 rel8) ≠ hi8 (s.pc + 2) →
    busRead s (joinWord (hi8 (s.pc + 2)) (lo8 (s.pc + 2 + sext16 rel8))) = .ok w →
    ∃ t, exec (.bpl rel8) s = .next t ∧ t.pc = s.pc + 2 + sext16 rel8 ∧ t.cycles = s.cycles + 4 ∧
      OnlyPcMoves s t

/-- A branch offset is the byte read as two's complement, −128 to +127, added to the PC after it (R10, R73;
the sum modulo 65536 is decision D3). -/
def Obligations.BranchOffsetIsSigned : Prop :=
  ∀ (pc2 : Word) (rel8 : Byte), branchTarget pc2 rel8 = pc2 + BitVec.ofInt 16 rel8.toInt

/-- A taken BPL's dummy reads can fault (R90): the first one ends it, and so does the second where the page
is crossed. -/
def Obligations.BplDummyReadFaults : Prop :=
  ∀ (rel8 : Byte) (s : State) (e : Stop), s.flag .N = false →
    (busRead s (s.pc + 2) = .error e → exec (.bpl rel8) s = e.toOutcome) ∧
    (∀ v, busRead s (s.pc + 2) = .ok v → hi8 (s.pc + 2 + sext16 rel8) ≠ hi8 (s.pc + 2) →
      busRead s (joinWord (hi8 (s.pc + 2)) (lo8 (s.pc + 2 + sext16 rel8))) = .error e →
      exec (.bpl rel8) s = e.toOutcome)

/-! ### Registers and flags over all instructions -/

/-- R100: Z is "the result byte is 0" and N is bit 7 of it after every LDA and LDX, whatever they were;
the two are never both set; and no other instruction writes N or Z. -/
def Obligations.NegativeZeroRule : Prop :=
  ∀ (i : Instr) (s t : State), exec i s = .next t →
    match i with
    | .ldaImm _ | .ldaAbs _ =>
      t.flag .Z = (t.a == 0) ∧ t.flag .N = t.a.getLsbD 7 ∧ ¬(t.flag .N = true ∧ t.flag .Z = true) ∧
        FlagsSameBut [.N, .Z] s t
    | .ldxImm _ =>
      t.flag .Z = (t.x == 0) ∧ t.flag .N = t.x.getLsbD 7 ∧ ¬(t.flag .N = true ∧ t.flag .Z = true) ∧
        FlagsSameBut [.N, .Z] s t
    | .bpl _ | .sei | .staAbs _ | .txs | .cld => t.flag .Z = s.flag .Z ∧ t.flag .N = s.flag .N

/-- Which instruction can change which flag (R26, R30 to R32): N and Z change only by the LDA/LDX family, I
is only set and by SEI, D is only cleared and by CLD, and bits 0, 4, 5 and 6 never change. -/
def Obligations.FlagWriters : Prop :=
  ∀ (i : Instr) (s t : State) (f : Flag), exec i s = .next t → t.flag f ≠ s.flag f →
    match f with
    | .N | .Z => (∃ v, i = .ldaImm v) ∨ (∃ addr, i = .ldaAbs addr) ∨ (∃ v, i = .ldxImm v)
    | .I => i = .sei ∧ t.flag .I = true
    | .D => i = .cld ∧ t.flag .D = false
    | .C | .B | .U | .V => False

/-- Which instruction can change which register (R21, R22, R24, R35): A only LDA, X only LDX, SP only TXS,
`ppuController` only STA to 0x2000. -/
def Obligations.RegisterWriters : Prop :=
  ∀ (i : Instr) (s t : State), exec i s = .next t →
    (t.a ≠ s.a → (∃ v, i = .ldaImm v) ∨ (∃ addr, i = .ldaAbs addr)) ∧
    (t.x ≠ s.x → ∃ v, i = .ldxImm v) ∧
    (t.sp ≠ s.sp → i = .txs) ∧
    (t.ppuController ≠ s.ppuController → i = .staAbs 0x2000 ∧ t.ppuController = s.a)

/-- Where PC stands after an instruction (R83): past its bytes, or at the target of a BPL with N clear. -/
def Obligations.PcAfterInstruction : Prop :=
  ∀ (i : Instr) (s t : State), exec i s = .next t →
    t.pc = s.pc + BitVec.ofNat 16 i.length ∨
      (∃ rel8, i = .bpl rel8 ∧ s.flag .N = false ∧ t.pc = s.pc + 2 + sext16 rel8)

/-- No step changes what belongs to the host or the loader (R34, R37, R38, R40): the cartridge, `ppuStatus`,
the phase, the recorded fault; and every byte of the bus reads as before. -/
def Obligations.StepLeavesTheRestAlone : Prop :=
  ∀ s t : State, step s = .next t → SameOutside s t

/-! ### The bus -/

/-- R48: the interception comes before any mapper decoding: under any cartridge or none, a read of 0x2002
gives `ppuStatus` and a write of 0x2000 sets `ppuController`. -/
def Obligations.InterceptionPrecedesMapper : Prop :=
  ∀ (s : State) (v : Byte), busRead s 0x2002 = .ok s.ppuStatus ∧
    busWrite s 0x2000 v = .ok { s with ppuController := v }

/-- The read map under NROM with at least one bank (R53): the clauses in order, each for the addresses the
ones before it do not take. -/
def Obligations.NromReadMap : Prop :=
  ∀ (s : State) (c : Cart) (addr : Word), HasNrom s c → c.prgBanks ≠ 0 →
    busRead s addr =
      if addr = 0x2002 then .ok s.ppuStatus
      else if addr.toNat < 0x8000 then .error (.fault (.unsupportedAddress addr))
      else if addr.toNat < 0xC000 then .ok (c.prg.read (addr.toNat - 0x8000))
      else if c.prgBanks = 2 then .ok (c.prg.read (addr.toNat - 0x8000))
      else .ok (c.prg.read (addr.toNat - 0xC000))

/-- R52: an NROM write at or above 0x8000 is discarded, changing nothing, and is charged one cycle; any other
address that the bus does not intercept is a fault. -/
def Obligations.NromWriteDiscarded : Prop :=
  ∀ (s : State) (c : Cart) (addr : Word) (v : Byte), HasNrom s c →
    (0x8000 ≤ addr.toNat → busWrite s addr v = .ok s ∧
      (Transaction.write addr v).perform s = .ok { s with cycles := s.cycles + 1 }) ∧
    (addr.toNat < 0x8000 → addr ≠ 0x2000 →
      busWrite s addr v = .error (.fault (.unsupportedAddress addr)))

/-- Under any other mapper identifier every access the bus does not intercept faults UnsupportedMapper, at
every address (R49; the order is the spec's decision D13). -/
def Obligations.UnknownMapperFaults : Prop :=
  ∀ (s : State) (c : Cart) (addr : Word) (v : Byte), HasCart s c → c.mapperId ≠ 0 →
    (addr ≠ 0x2002 → busRead s addr = .error (.fault (.unsupportedMapper addr))) ∧
    (addr ≠ 0x2000 → busWrite s addr v = .error (.fault (.unsupportedMapper addr)))

/-- An NROM read finds its offset outside the buffer exactly when there is no PRG bank (R51, decision
D10). -/
def Obligations.PrgOutOfRangeOnlyWhenEmpty : Prop :=
  ∀ (s : State) (c : Cart) (addr : Word), HasNrom s c → 0x8000 ≤ addr.toNat →
    (busRead s addr = .error (.fault (.prgOutOfRange addr)) ↔ c.prgBanks = 0)

/-- With one PRG bank the two halves of the window mirror each other (E1 of the source's properties). -/
def Obligations.OneBankMirrors : Prop :=
  ∀ (s : State) (c : Cart) (k : Nat), HasNrom s c → c.prgBanks = 1 → k < 0x4000 →
    busRead s (0x8000 + BitVec.ofNat 16 k) = .ok (c.prg.read k) ∧
    busRead s (0xC000 + BitVec.ofNat 16 k) = .ok (c.prg.read k)

/-- No write is ever seen by a later read (R54, R58; E3): where a write succeeds, every address reads as
before it. -/
def Obligations.WritesAreNeverReadBack : Prop :=
  ∀ (s t : State) (addr : Word) (v : Byte), busWrite s addr v = .ok t → SameBytes s t

/-- The two 16-bit values the core assembles are little-endian (R55): a pair read through the bus, and the
absolute operand. -/
def Obligations.LittleEndianPairs : Prop :=
  (∀ (s : State) (addr : Word) (lo hi : Byte), busRead s addr = .ok lo → busRead s (addr + 1) = .ok hi →
    ∃ v : Word, memRead16 s addr = .ok v ∧ v.toNat = hi.toNat * 256 + lo.toNat) ∧
  (∀ (lo hi : Byte), ∃ addr : Word, addr.toNat = hi.toNat * 256 + lo.toNat ∧
    decode [0xAD, lo, hi] = .ok (.ldaAbs addr, []) ∧ decode [0x8D, lo, hi] = .ok (.staAbs addr, []))

/-! ### Invariants and whole-machine rules -/

/-- Every step keeps the invariant: a canonical, well-formed cartridge, and no fault without its cause. -/
def Obligations.StepKeepsInvariant : Prop :=
  ∀ s t : State, s.inv = true → step s = .next t → t.inv = true

/-- Process start meets the invariant for every value of the open parameters (R8, R152), and so does the
reset state, which is one instance of it (log 1). -/
def Obligations.ProcessStartMeetsInvariant : Prop :=
  (∀ init : Init, (State.processStart init).hostInv = true) ∧ State.reset.hostInv = true

/-- Every interaction of the host keeps the invariant: a load of any image, a frame, and setting
`ppuStatus`. -/
def Obligations.HostMovesKeepInvariant : Prop :=
  ∀ (m : HostMove) (s : State), s.hostInv = true → (hostMove m s).2.hostInv = true

/-- R37: during execution the cartridge is read-only. No frame and no setting of `ppuStatus` changes it, no
write that reaches the NROM mapper changes anything, and only a load replaces it. -/
def Obligations.OnlyLoadReplacesCartridge : Prop :=
  (∀ (m : HostMove) (s : State), (hostMove m s).2.cart ≠ s.cart → ∃ image, m = .loadROM image) ∧
  (∀ (s t : State) (addr : Word) (v : Byte), mapperWrite s addr v = .ok t → t = s)

/-- No byte of the cartridge's window changes while no ROM is loaded, whatever frames run and whatever the
host sets (R63, R66). -/
def Obligations.RomNeverChangesWithoutLoad : Prop :=
  ∀ (ms : List HostMove) (s : State) (addr : Word), (∀ m ∈ ms, m.noLoad = true) → addr ≠ 0x2002 →
    busRead (afterMoves ms s) addr = busRead s addr

/-- The cycles of each instruction (R74's cycle column): within its row, and exactly by its case. -/
def Obligations.CyclesOfEachInstruction : Prop :=
  ∀ (i : Instr) (s t : State), exec i s = .next t →
    s.cycles + i.row.minCycles ≤ t.cycles ∧ t.cycles ≤ s.cycles + i.row.maxCycles ∧
    t.cycles = s.cycles +
      match i with
      | .bpl rel8 =>
        if s.flag .N = true then 2
        else if hi8 (s.pc + 2 + sext16 rel8) = hi8 (s.pc + 2) then 3
        else 4
      | .sei | .txs | .cld | .ldxImm _ | .ldaImm _ => 2
      | .staAbs _ | .ldaAbs _ => 4

/-- R154's transaction lists decide a step: performed in order, the first that faults gives the step's fault
(R119), and where all succeed the step completes with one cycle for each (R81), and `ppuController` is what
they leave. -/
def Obligations.TransactionsDecideStep : Prop :=
  ∀ (s : State) (i : Instr) (bytes : List Byte), Running s →
    readBytes s s.pc i.length = .ok bytes → decode bytes = .ok (i, []) →
    match performAll (transactions i s) s with
    | .error e => step s = e.toOutcome
    | .ok u => ∃ t, step s = .next t ∧ t.cycles = s.cycles + (transactions i s).length ∧
        t.cycles = u.cycles ∧ t.ppuController = u.ppuController

/-- What each fault of a step says of the machine it is raised in (R110, R111). -/
def Obligations.FaultsHaveTheirCause : Prop :=
  ∀ (s : State) (c : Cart) (f : Fault), HasCart s c → s.fault = none → step s = .fault f →
    match f with
    | .illegalOpcode op pc0 => pc0 = s.pc ∧ busRead s pc0 = .ok op ∧ opcodeLength op = none
    | .unsupportedAddress addr => c.mapperId = 0 ∧ addr.toNat < 0x8000
    | .unsupportedMapper _ => c.mapperId ≠ 0
    | .prgOutOfRange addr => c.mapperId = 0 ∧ c.prgBanks = 0 ∧ 0x8000 ≤ addr.toNat

/-- No step is refused, in any state. Of a state without a cartridge, where R80 performs no step, this holds by
the model's choice that `step` idles there (log 6). -/
def Obligations.StepIsNeverRefused : Prop :=
  ∀ (s : State) (r : Refusal), step s ≠ .refused r

/-- What no instruction reads has no influence on what a program can see (R24, R33, R35, R67): two machines
that agree on everything but SP, the bits of P other than N, `ppuController` and the CHR side of the cartridge
answer the same step, and agree so again. -/
def Obligations.UnreadStateIsUnobservable : Prop :=
  ∀ s t : State, s.visible = t.visible → visibleOutcome (step s) = visibleOutcome (step t)

/-- The same of whole frames: equal replies, and agreement again after any number of host moves other than
loads. After a frame that faults, where R113 leaves A, X, P and PC any value, the two machines agree on them only by
the model's choice that a free value is drawn by the counter `freeCount` alone (log 3). -/
def Obligations.FramesHideUnreadState : Prop :=
  ∀ (ms : List HostMove) (s t : State), (∀ m ∈ ms, m.noLoad = true) → s.visible = t.visible →
    (observe ms s).map (fun r => (r.1, r.2.visible)) = (observe ms t).map (fun r => (r.1, r.2.visible))

/-! ### The frame scheduler -/

/-- A call with no cartridge is a no-op (R155, decision D16; 90_conflicts C2): success, nothing changed, the
phase not toggled. -/
def Obligations.FrameWithoutCartridgeIsNoop : Prop :=
  ∀ s : State, s.cart = none → stepFrame s = (.success, s)

/-- A recorded fault is returned by every later call, which runs no step and toggles the phase (R115,
decisions D12, D17). -/
def Obligations.RecordedFaultIsReturnedForever : Prop :=
  ∀ (n : Nat) (s : State) (f : Fault), s.cart ≠ none → s.fault = some f → s.cycles = 0 →
    (stepFrame (frames n s)).1 = .fault f ∧
    frames n s = { s with phase := if n % 2 = 0 then s.phase else s.phase.toggle }

/-- A successful call is exactly R155's loop: it runs some number of steps from cycle count 0, the count
below the budget before each and not below it after the last, and leaves the state of the last step with the
phase toggled. -/
def Obligations.FrameSuccessIsTheLoop : Prop :=
  ∀ s t : State, Running s →
    (stepFrame s = (.success, t) ↔
      ∃ (n : Nat) (u : State),
        Sys2Proof.core.run n { s with phase := s.phase.toggle, cycles := 0 } = .next u ∧
        (∀ k < n, ∀ v : State, Sys2Proof.core.run k { s with phase := s.phase.toggle, cycles := 0 } = .next v →
          v.cycles < frameBudget s.phase) ∧
        frameBudget s.phase ≤ u.cycles ∧ t = { u with cycles := 0 })

/-- The last step of a successful call overruns the budget by at most 3 cycles (R155): where the call's loop,
from the toggled phase and cycle count 0, first reaches the budget, the call succeeds with that step, whose count is
at most 3 above it. -/
def Obligations.FrameOverrunsByAtMostThree : Prop :=
  ∀ (s u : State) (n : Nat), Running s →
    Sys2Proof.core.run n { s with phase := s.phase.toggle, cycles := 0 } = .next u →
    (∀ k < n, ∀ v : State, Sys2Proof.core.run k { s with phase := s.phase.toggle, cycles := 0 } = .next v →
      v.cycles < frameBudget s.phase) →
    frameBudget s.phase ≤ u.cycles →
    stepFrame s = (.success, { u with cycles := 0 }) ∧ u.cycles ≤ frameBudget s.phase + 3

/-- R114: a fault ends the call that was running. No further step runs: the recorded fault is that of the
step from `u`, and the cartridge and both I/O registers are those of `u`. The call returns the fault record, its cycle
count is discarded, and the phase still toggles. -/
def Obligations.FaultEndsTheFrame : Prop :=
  ∀ (s u : State) (n : Nat) (f : Fault), Running s →
    Sys2Proof.core.run n { s with phase := s.phase.toggle, cycles := 0 } = .next u →
    (∀ k ≤ n, ∀ v : State, Sys2Proof.core.run k { s with phase := s.phase.toggle, cycles := 0 } = .next v →
      v.cycles < frameBudget s.phase) →
    step u = .fault f →
    ∃ t, stepFrame s = (.fault f, t) ∧ t.phase = s.phase.toggle ∧ t.cycles = 0 ∧
      t.fault = some f ∧ t.cart = u.cart ∧ t.ppuStatus = u.ppuStatus ∧ t.ppuController = u.ppuController

/-- What a fault that ends a call leaves (R113, R40): the fault is recorded, and the cartridge and both I/O
registers are those from before the faulting step; of A, X, SP, P and PC nothing is said (decision D12). -/
def Obligations.FaultIsRecordedAndDevicesKept : Prop :=
  ∀ (s u : State) (n : Nat) (f : Fault), Running s →
    Sys2Proof.core.run n { s with phase := s.phase.toggle, cycles := 0 } = .next u →
    (∀ k ≤ n, ∀ v : State, Sys2Proof.core.run k { s with phase := s.phase.toggle, cycles := 0 } = .next v →
      v.cycles < frameBudget s.phase) →
    step u = .fault f →
    (stepFrame s).2.fault = some f ∧ (stepFrame s).2.cart = u.cart ∧
      (stepFrame s).2.ppuStatus = u.ppuStatus ∧ (stepFrame s).2.ppuController = u.ppuController

/-- Every call of a machine with a cartridge returns success or a fault (R155), toggles the phase (R38), and
leaves no cycle count (R39). -/
def Obligations.FrameReturns : Prop :=
  ∀ s : State, s.cart ≠ none →
    ((stepFrame s).1 = .success ∨ ∃ f, (stepFrame s).1 = .fault f) ∧
    (stepFrame s).2.phase = s.phase.toggle ∧ (stepFrame s).2.cycles = 0

/-- The budgets alternate (R156, R151): after a successful load they are 29780, 29781, 29780, ... for the first,
second, third call and so on, whether each call succeeded or faulted. -/
def Obligations.BudgetsAlternate : Prop :=
  ∀ (image : List Byte) (s : State) (n : Nat), (loadROM image s).1 = .success →
    frameBudget (frames n (loadROM image s).2).phase = if n % 2 = 0 then 29780 else 29781

/-- The host sets `ppuStatus` and nothing else (R129, decision D7), and a later read of 0x2002 gives that
byte. -/
def Obligations.HostSetsPpuStatus : Prop :=
  ∀ (s : State) (v : Byte), setPpuStatus v s = { s with ppuStatus := v } ∧
    busRead (setPpuStatus v s) 0x2002 = .ok v ∧
    (∀ addr, addr ≠ 0x2002 → busRead (setPpuStatus v s) addr = busRead s addr)

/-! ### Load and reset -/

/-- When a load is refused, and that it changes nothing then (R116, R140, R142; the length checks are the
spec's decisions D11 and D24). -/
def Obligations.FailedLoadChangesNothing : Prop :=
  ∀ (image : List Byte) (s : State),
    (image.length < 16 → loadROM image s = (.imageTooShort, s)) ∧
    (16 ≤ image.length → image.take 4 ≠ [0x4E, 0x45, 0x53, 0x1A] → loadROM image s = (.badMagic, s)) ∧
    (16 ≤ image.length → image.take 4 = [0x4E, 0x45, 0x53, 0x1A] →
      image.length < 16 + (image.getD 4 0).toNat * 16384 + (image.getD 5 0).toNat * 8192 →
      loadROM image s = (.imageTooShort, s))

/-- What an accepted image installs (R143 to R147): its bank counts, its mapper identifier, the NES 2.0
bit, the PRG bytes from offset 16 on and the CHR bytes right after them, and no CHR where the count is 0. -/
def Obligations.LoadInstallsImage : Prop :=
  ∀ (image : List Byte) (s : State), acceptedImage image →
    ∃ c, (loadROM image s).2.cart = some c ∧
      c.prgBanks = image.getD 4 0 ∧ c.chrBanks = image.getD 5 0 ∧
      c.mapperId = (image.getD 6 0 >>> 4) ||| (image.getD 7 0 &&& 0xF0) ∧
      (c.nes2 = true ↔ image.getD 7 0 &&& 0x0C = 0x08) ∧
      (∀ k < c.prgSize, c.prg.read k = image.getD (16 + k) 0) ∧
      (c.chrBanks = 0 → c.chr = none) ∧
      (c.chrBanks ≠ 0 → ∃ chr, c.chr = some chr ∧
        ∀ k < c.chrSize, chr.read k = image.getD (16 + c.prgSize + k) 0)

/-- An accepted image with mapper 0 and a PRG bank loads (R148, R150, R151): SP is 0xFD, PC the little-endian
vector at 0xFFFC, the phase even, no fault recorded; A, X, P and the I/O registers are not reset. -/
def Obligations.LoadResets : Prop :=
  ∀ (image : List Byte) (s : State), acceptedImage image →
    (image.getD 6 0 >>> 4) ||| (image.getD 7 0 &&& 0xF0) = 0 → image.getD 4 0 ≠ 0 →
    ∃ (t : State) (lo hi : Byte), loadROM image s = (.success, t) ∧
      busRead t 0xFFFC = .ok lo ∧ busRead t 0xFFFD = .ok hi ∧
      t.sp = 0xFD ∧ t.pc = joinWord hi lo ∧ t.phase = .even ∧ t.fault = none ∧
      t.a = s.a ∧ t.x = s.x ∧ t.p = s.p ∧
      t.ppuStatus = s.ppuStatus ∧ t.ppuController = s.ppuController ∧ t.cycles = s.cycles

/-- An accepted image whose vector read faults leaves the machine faulted with the new cartridge installed
(R149, decision D14): UnsupportedMapper for another mapper, else PrgOutOfRange for no PRG bank, both at
0xFFFC; A, X, P and the I/O registers are not reset. -/
def Obligations.VectorFaultLeavesMachineFaulted : Prop :=
  ∀ (image : List Byte) (s : State), acceptedImage image →
    (image.getD 6 0 >>> 4) ||| (image.getD 7 0 &&& 0xF0) ≠ 0 ∨ image.getD 4 0 = 0 →
    ∃ (t : State) (f : Fault), loadROM image s = (.vectorFault f, t) ∧
      f = (if (image.getD 6 0 >>> 4) ||| (image.getD 7 0 &&& 0xF0) ≠ 0 then .unsupportedMapper 0xFFFC
        else .prgOutOfRange 0xFFFC) ∧
      t.fault = some f ∧ t.phase = .even ∧ (∃ c, t.cart = some c ∧ c.prgBanks = image.getD 4 0) ∧
      t.a = s.a ∧ t.x = s.x ∧ t.p = s.p ∧
      t.ppuStatus = s.ppuStatus ∧ t.ppuController = s.ppuController

/-! ### The assembler -/

/-- A branch line that assembles at `pc0` encodes a BPL whose target, taken at `pc0`, is the one it names
(R84, decision D21; the distance modulo 65536 is the model's choice, log 9). -/
def Obligations.AssembledBranchReachesTarget : Prop :=
  ∀ (pc0 target : Word) (i : Instr), assemble pc0 (.bpl target) = some i →
    ∃ rel8, i = .bpl rel8 ∧ branchTarget (pc0 + 2) rel8 = target

/-- The line of an instruction assembles to it, at every address (R84, R85). Of a BPL whose target wraps past
0x0000 or 0xFFFF this holds by the model's choice that the distance is taken modulo 65536 (log 9). -/
def Obligations.AssembleOfDisassemble : Prop :=
  ∀ (pc0 : Word) (i : Instr), assemble pc0 (disassemble pc0 i) = some i
end

