-- ==== Sys2Proof/Laws/Memory.lean ====
section
/-! SUPPORT. The buffer operations: what a read gives after a write or a load, and that every operation keeps
the canonical form and the buffer's range. -/

namespace Sys2Proof

theorem Memory.wfFrom_cons {lo k : Nat} {b : Byte} {m : Memory} :
    Memory.wfFrom lo ((k, b) :: m) = true ↔ lo ≤ k ∧ b ≠ 0 ∧ Memory.wfFrom (k + 1) m = true := by
  simp [Memory.wfFrom, and_assoc]

theorem Memory.wfFrom_mono {lo lo' : Nat} (h : lo ≤ lo') :
    ∀ {m : Memory}, Memory.wfFrom lo' m = true → Memory.wfFrom lo m = true
  | [], _ => rfl
  | (k, b) :: m, hm => by
    rw [Memory.wfFrom_cons] at hm ⊢
    exact ⟨h.trans hm.1, hm.2⟩

/-- A canonical buffer lists nothing below its bound. -/
theorem Memory.read_below {lo : Nat} :
    ∀ {m : Memory} {n : Nat}, Memory.wfFrom lo m = true → n < lo → m.read n = 0
  | [], _, _, _ => rfl
  | (k, b) :: m, n, hm, hn => by
    rw [Memory.wfFrom_cons] at hm
    rw [Memory.read, if_neg (by omega)]
    exact Memory.read_below hm.2.2 (by omega)

theorem Memory.write_wfFrom {lo : Nat} :
    ∀ {m : Memory} {n : Nat} {v : Byte}, Memory.wfFrom lo m = true → lo ≤ n →
      Memory.wfFrom lo (m.write n v) = true
  | [], n, v, _, hn => by
    unfold Memory.write
    split
    · rfl
    · exact Memory.wfFrom_cons.mpr ⟨hn, ‹_›, rfl⟩
  | (k, b) :: m, n, v, hm, hn => by
    have hc := Memory.wfFrom_cons.mp hm
    unfold Memory.write
    split
    · split
      · exact hm
      · exact Memory.wfFrom_cons.mpr ⟨hn, ‹_›, Memory.wfFrom_cons.mpr ⟨by omega, hc.2⟩⟩
    · split
      · split
        · exact Memory.wfFrom_mono (by omega) hc.2.2
        · subst n
          exact Memory.wfFrom_cons.mpr ⟨hn, ‹_›, hc.2.2⟩
      · exact Memory.wfFrom_cons.mpr ⟨hc.1, hc.2.1, Memory.write_wfFrom hc.2.2 (by omega)⟩

/-- A write keeps the canonical form. -/
theorem Memory.write_wf {m : Memory} {n : Nat} {v : Byte} (h : m.wf = true) : (m.write n v).wf = true :=
  Memory.write_wfFrom h (Nat.zero_le n)

theorem Memory.below_cons {n k : Nat} {b : Byte} {m : Memory} :
    Memory.below n ((k, b) :: m) = true ↔ k < n ∧ m.below n = true := by
  simp only [Memory.below, List.all_cons, Bool.and_eq_true, decide_eq_true_eq]

/-- A write inside the range keeps the range. -/
theorem Memory.write_below {n : Nat} :
    ∀ {m : Memory} {k : Nat} {v : Byte}, m.below n = true → k < n → (m.write k v).below n = true
  | [], k, v, _, hk => by
    unfold Memory.write
    split
    · rfl
    · exact Memory.below_cons.mpr ⟨hk, rfl⟩
  | (j, b) :: m, k, v, hm, hk => by
    have hc := Memory.below_cons.mp hm
    unfold Memory.write
    split_ifs
    · exact hm
    · exact Memory.below_cons.mpr ⟨hk, hm⟩
    · exact hc.2
    · exact Memory.below_cons.mpr ⟨hk, hc.2⟩
    · exact Memory.below_cons.mpr ⟨hc.1, Memory.write_below hc.2 hk⟩

/-- The byte written is the byte read. -/
theorem Memory.read_write_same {lo : Nat} :
    ∀ {m : Memory} {n : Nat} {v : Byte}, Memory.wfFrom lo m = true → (m.write n v).read n = v
  | [], n, v, _ => by
    unfold Memory.write
    split <;> simp [Memory.read, *]
  | (k, b) :: m, n, v, hm => by
    have hc := Memory.wfFrom_cons.mp hm
    unfold Memory.write
    split_ifs with h1 h2 h3 h4
    · rw [Memory.read, if_neg (by omega), h2]
      exact Memory.read_below hc.2.2 (by omega)
    · simp [Memory.read]
    · rw [h4, Memory.read_below hc.2.2 (by omega)]
    · simp [Memory.read]
    · rw [Memory.read, if_neg (by omega)]
      exact Memory.read_write_same hc.2.2

/-- Every other byte reads as before. -/
theorem Memory.read_write_other :
    ∀ {m : Memory} {n k : Nat} {v : Byte}, k ≠ n → (m.write n v).read k = m.read k
  | [], n, k, v, h => by
    unfold Memory.write
    split <;> simp [Memory.read, h.symm]
  | (j, b) :: m, n, k, v, h => by
    unfold Memory.write
    split_ifs with h1 h2 h3 h4
    · rfl
    · rw [Memory.read, if_neg h.symm]
    · rw [Memory.read, if_neg (by omega)]
    · rw [Memory.read, Memory.read, if_neg h.symm, if_neg (by omega)]
    · rw [Memory.read, Memory.read, Memory.read_write_other h]

theorem Memory.ofBytes_wfFrom :
    ∀ {n lo : Nat} {bs : List Byte}, lo ≤ n → Memory.wfFrom lo (Memory.ofBytes n bs) = true
  | _, _, [], _ => rfl
  | n, lo, b :: bs, h => by
    unfold Memory.ofBytes
    split
    · exact Memory.ofBytes_wfFrom (by omega)
    · exact Memory.wfFrom_cons.mpr ⟨h, ‹_›, Memory.ofBytes_wfFrom (Nat.le_refl _)⟩

/-- A buffer made of bytes is canonical. -/
theorem Memory.ofBytes_wf (n : Nat) (bs : List Byte) : (Memory.ofBytes n bs).wf = true :=
  Memory.ofBytes_wfFrom (Nat.zero_le n)

theorem Memory.ofBytes_below :
    ∀ {n lim : Nat} {bs : List Byte}, n + bs.length ≤ lim → (Memory.ofBytes n bs).below lim = true
  | _, _, [], _ => rfl
  | n, lim, b :: bs, h => by
    simp only [List.length_cons] at h
    have ih := Memory.ofBytes_below (n := n + 1) (lim := lim) (bs := bs) (by omega)
    unfold Memory.ofBytes
    split
    · exact ih
    · exact Memory.below_cons.mpr ⟨by omega, ih⟩

/-- A buffer made of bytes from address `n` on holds them in order. -/
theorem Memory.read_ofBytes :
    ∀ {n k : Nat} {bs : List Byte}, (Memory.ofBytes n bs).read (n + k) = bs.getD k 0
  | _, _, [] => by simp [Memory.ofBytes, Memory.read]
  | n, 0, b :: bs => by
    unfold Memory.ofBytes
    split
    · rename_i h
      rw [Memory.read_below (lo := n + 1) (Memory.ofBytes_wfFrom (Nat.le_refl _)) (by omega)]
      simp [h]
    · simp [Memory.read]
  | n, k + 1, b :: bs => by
    have ih := Memory.read_ofBytes (n := n + 1) (k := k) (bs := bs)
    rw [show n + 1 + k = n + (k + 1) by omega] at ih
    unfold Memory.ofBytes
    split
    · simpa using ih
    · rw [Memory.read, if_neg (by omega)]
      simpa using ih

end Sys2Proof
end

