-- ==== Sys2Proof/Laws/State.lean ====
section
/-! SUPPORT. What each update of the state does to each field: one lemma per field, true by rfl or by cases
on the register, so that no proof unfolds a record update. -/

namespace Sys2Proof.Machine

@[simp] theorem State.setPc_a (s : State) (v : Word) : (s.setPc v).a = s.a := rfl
@[simp] theorem State.setPc_x (s : State) (v : Word) : (s.setPc v).x = s.x := rfl
@[simp] theorem State.setPc_sp (s : State) (v : Word) : (s.setPc v).sp = s.sp := rfl
@[simp] theorem State.setPc_p (s : State) (v : Word) : (s.setPc v).p = s.p := rfl
@[simp] theorem State.setPc_pc (s : State) (v : Word) : (s.setPc v).pc = v := rfl
@[simp] theorem State.setPc_ppuStatus (s : State) (v : Word) : (s.setPc v).ppuStatus = s.ppuStatus := rfl
@[simp] theorem State.setPc_ppuController (s : State) (v : Word) : (s.setPc v).ppuController = s.ppuController := rfl
@[simp] theorem State.setPc_cart (s : State) (v : Word) : (s.setPc v).cart = s.cart := rfl
@[simp] theorem State.setPc_phase (s : State) (v : Word) : (s.setPc v).phase = s.phase := rfl
@[simp] theorem State.setPc_fault (s : State) (v : Word) : (s.setPc v).fault = s.fault := rfl
@[simp] theorem State.setPc_cycles (s : State) (v : Word) : (s.setPc v).cycles = s.cycles := rfl
@[simp] theorem State.setPc_freeCount (s : State) (v : Word) : (s.setPc v).freeCount = s.freeCount := rfl

@[simp] theorem State.charge_a (s : State) : (s.charge).a = s.a := rfl
@[simp] theorem State.charge_x (s : State) : (s.charge).x = s.x := rfl
@[simp] theorem State.charge_sp (s : State) : (s.charge).sp = s.sp := rfl
@[simp] theorem State.charge_p (s : State) : (s.charge).p = s.p := rfl
@[simp] theorem State.charge_pc (s : State) : (s.charge).pc = s.pc := rfl
@[simp] theorem State.charge_ppuStatus (s : State) : (s.charge).ppuStatus = s.ppuStatus := rfl
@[simp] theorem State.charge_ppuController (s : State) : (s.charge).ppuController = s.ppuController := rfl
@[simp] theorem State.charge_cart (s : State) : (s.charge).cart = s.cart := rfl
@[simp] theorem State.charge_phase (s : State) : (s.charge).phase = s.phase := rfl
@[simp] theorem State.charge_fault (s : State) : (s.charge).fault = s.fault := rfl
@[simp] theorem State.charge_cycles (s : State) : (s.charge).cycles = s.cycles + 1 := rfl
@[simp] theorem State.charge_freeCount (s : State) : (s.charge).freeCount = s.freeCount := rfl

@[simp] theorem State.fetched_a (s : State) (n : Nat) : (s.fetched n).a = s.a := rfl
@[simp] theorem State.fetched_x (s : State) (n : Nat) : (s.fetched n).x = s.x := rfl
@[simp] theorem State.fetched_sp (s : State) (n : Nat) : (s.fetched n).sp = s.sp := rfl
@[simp] theorem State.fetched_p (s : State) (n : Nat) : (s.fetched n).p = s.p := rfl
@[simp] theorem State.fetched_pc (s : State) (n : Nat) : (s.fetched n).pc = s.pc + BitVec.ofNat 16 n := rfl
@[simp] theorem State.fetched_ppuStatus (s : State) (n : Nat) : (s.fetched n).ppuStatus = s.ppuStatus := rfl
@[simp] theorem State.fetched_ppuController (s : State) (n : Nat) : (s.fetched n).ppuController = s.ppuController := rfl
@[simp] theorem State.fetched_cart (s : State) (n : Nat) : (s.fetched n).cart = s.cart := rfl
@[simp] theorem State.fetched_phase (s : State) (n : Nat) : (s.fetched n).phase = s.phase := rfl
@[simp] theorem State.fetched_fault (s : State) (n : Nat) : (s.fetched n).fault = s.fault := rfl
@[simp] theorem State.fetched_cycles (s : State) (n : Nat) : (s.fetched n).cycles = s.cycles + n := rfl
@[simp] theorem State.fetched_freeCount (s : State) (n : Nat) : (s.fetched n).freeCount = s.freeCount := rfl

@[simp] theorem State.writeReg_pc (s : State) (r : Reg) (v : Byte) : (s.writeReg r v).pc = s.pc := by cases r <;> rfl
@[simp] theorem State.writeReg_ppuStatus (s : State) (r : Reg) (v : Byte) : (s.writeReg r v).ppuStatus = s.ppuStatus := by cases r <;> rfl
@[simp] theorem State.writeReg_ppuController (s : State) (r : Reg) (v : Byte) : (s.writeReg r v).ppuController = s.ppuController := by cases r <;> rfl
@[simp] theorem State.writeReg_cart (s : State) (r : Reg) (v : Byte) : (s.writeReg r v).cart = s.cart := by cases r <;> rfl
@[simp] theorem State.writeReg_phase (s : State) (r : Reg) (v : Byte) : (s.writeReg r v).phase = s.phase := by cases r <;> rfl
@[simp] theorem State.writeReg_fault (s : State) (r : Reg) (v : Byte) : (s.writeReg r v).fault = s.fault := by cases r <;> rfl
@[simp] theorem State.writeReg_cycles (s : State) (r : Reg) (v : Byte) : (s.writeReg r v).cycles = s.cycles := by cases r <;> rfl
@[simp] theorem State.writeReg_freeCount (s : State) (r : Reg) (v : Byte) : (s.writeReg r v).freeCount = s.freeCount := by cases r <;> rfl

@[simp] theorem State.readReg_A (s : State) : s.readReg .A = s.a := rfl
@[simp] theorem State.writeReg_A_a (s : State) (v : Byte) : (s.writeReg .A v).a = v := rfl
@[simp] theorem State.writeReg_A_x (s : State) (v : Byte) : (s.writeReg .A v).x = s.x := rfl
@[simp] theorem State.writeReg_A_sp (s : State) (v : Byte) : (s.writeReg .A v).sp = s.sp := rfl
@[simp] theorem State.writeReg_A_p (s : State) (v : Byte) : (s.writeReg .A v).p = s.p := rfl
@[simp] theorem State.readReg_X (s : State) : s.readReg .X = s.x := rfl
@[simp] theorem State.writeReg_X_a (s : State) (v : Byte) : (s.writeReg .X v).a = s.a := rfl
@[simp] theorem State.writeReg_X_x (s : State) (v : Byte) : (s.writeReg .X v).x = v := rfl
@[simp] theorem State.writeReg_X_sp (s : State) (v : Byte) : (s.writeReg .X v).sp = s.sp := rfl
@[simp] theorem State.writeReg_X_p (s : State) (v : Byte) : (s.writeReg .X v).p = s.p := rfl
@[simp] theorem State.readReg_SP (s : State) : s.readReg .SP = s.sp := rfl
@[simp] theorem State.writeReg_SP_a (s : State) (v : Byte) : (s.writeReg .SP v).a = s.a := rfl
@[simp] theorem State.writeReg_SP_x (s : State) (v : Byte) : (s.writeReg .SP v).x = s.x := rfl
@[simp] theorem State.writeReg_SP_sp (s : State) (v : Byte) : (s.writeReg .SP v).sp = v := rfl
@[simp] theorem State.writeReg_SP_p (s : State) (v : Byte) : (s.writeReg .SP v).p = s.p := rfl
@[simp] theorem State.readReg_P (s : State) : s.readReg .P = s.p := rfl
@[simp] theorem State.writeReg_P_a (s : State) (v : Byte) : (s.writeReg .P v).a = s.a := rfl
@[simp] theorem State.writeReg_P_x (s : State) (v : Byte) : (s.writeReg .P v).x = s.x := rfl
@[simp] theorem State.writeReg_P_sp (s : State) (v : Byte) : (s.writeReg .P v).sp = s.sp := rfl
@[simp] theorem State.writeReg_P_p (s : State) (v : Byte) : (s.writeReg .P v).p = v := rfl

@[simp] theorem State.setFlag_a (s : State) (f : Flag) (b : Bool) : (s.setFlag f b).a = s.a := rfl
@[simp] theorem State.setFlag_x (s : State) (f : Flag) (b : Bool) : (s.setFlag f b).x = s.x := rfl
@[simp] theorem State.setFlag_sp (s : State) (f : Flag) (b : Bool) : (s.setFlag f b).sp = s.sp := rfl
@[simp] theorem State.setFlag_p (s : State) (f : Flag) (b : Bool) : (s.setFlag f b).p = withBit s.p f.bit b := rfl
@[simp] theorem State.setFlag_pc (s : State) (f : Flag) (b : Bool) : (s.setFlag f b).pc = s.pc := rfl
@[simp] theorem State.setFlag_ppuStatus (s : State) (f : Flag) (b : Bool) : (s.setFlag f b).ppuStatus = s.ppuStatus := rfl
@[simp] theorem State.setFlag_ppuController (s : State) (f : Flag) (b : Bool) : (s.setFlag f b).ppuController = s.ppuController := rfl
@[simp] theorem State.setFlag_cart (s : State) (f : Flag) (b : Bool) : (s.setFlag f b).cart = s.cart := rfl
@[simp] theorem State.setFlag_phase (s : State) (f : Flag) (b : Bool) : (s.setFlag f b).phase = s.phase := rfl
@[simp] theorem State.setFlag_fault (s : State) (f : Flag) (b : Bool) : (s.setFlag f b).fault = s.fault := rfl
@[simp] theorem State.setFlag_cycles (s : State) (f : Flag) (b : Bool) : (s.setFlag f b).cycles = s.cycles := rfl
@[simp] theorem State.setFlag_freeCount (s : State) (f : Flag) (b : Bool) : (s.setFlag f b).freeCount = s.freeCount := rfl

@[simp] theorem State.updateNZ_a (s : State) (r : Byte) : (s.updateNZ r).a = s.a := rfl
@[simp] theorem State.updateNZ_x (s : State) (r : Byte) : (s.updateNZ r).x = s.x := rfl
@[simp] theorem State.updateNZ_sp (s : State) (r : Byte) : (s.updateNZ r).sp = s.sp := rfl
@[simp] theorem State.updateNZ_p (s : State) (r : Byte) : (s.updateNZ r).p = withBit (withBit s.p 1 (r == 0)) 7 (r.getLsbD 7) := rfl
@[simp] theorem State.updateNZ_pc (s : State) (r : Byte) : (s.updateNZ r).pc = s.pc := rfl
@[simp] theorem State.updateNZ_ppuStatus (s : State) (r : Byte) : (s.updateNZ r).ppuStatus = s.ppuStatus := rfl
@[simp] theorem State.updateNZ_ppuController (s : State) (r : Byte) : (s.updateNZ r).ppuController = s.ppuController := rfl
@[simp] theorem State.updateNZ_cart (s : State) (r : Byte) : (s.updateNZ r).cart = s.cart := rfl
@[simp] theorem State.updateNZ_phase (s : State) (r : Byte) : (s.updateNZ r).phase = s.phase := rfl
@[simp] theorem State.updateNZ_fault (s : State) (r : Byte) : (s.updateNZ r).fault = s.fault := rfl
@[simp] theorem State.updateNZ_cycles (s : State) (r : Byte) : (s.updateNZ r).cycles = s.cycles := rfl
@[simp] theorem State.updateNZ_freeCount (s : State) (r : Byte) : (s.updateNZ r).freeCount = s.freeCount := rfl

@[simp] theorem State.loadReg_pc (s : State) (r : Reg) (v : Byte) : (s.loadReg r v).pc = s.pc := by cases r <;> rfl
@[simp] theorem State.loadReg_ppuStatus (s : State) (r : Reg) (v : Byte) : (s.loadReg r v).ppuStatus = s.ppuStatus := by cases r <;> rfl
@[simp] theorem State.loadReg_ppuController (s : State) (r : Reg) (v : Byte) : (s.loadReg r v).ppuController = s.ppuController := by cases r <;> rfl
@[simp] theorem State.loadReg_cart (s : State) (r : Reg) (v : Byte) : (s.loadReg r v).cart = s.cart := by cases r <;> rfl
@[simp] theorem State.loadReg_phase (s : State) (r : Reg) (v : Byte) : (s.loadReg r v).phase = s.phase := by cases r <;> rfl
@[simp] theorem State.loadReg_fault (s : State) (r : Reg) (v : Byte) : (s.loadReg r v).fault = s.fault := by cases r <;> rfl
@[simp] theorem State.loadReg_cycles (s : State) (r : Reg) (v : Byte) : (s.loadReg r v).cycles = s.cycles := by cases r <;> rfl
@[simp] theorem State.loadReg_freeCount (s : State) (r : Reg) (v : Byte) : (s.loadReg r v).freeCount = s.freeCount := by cases r <;> rfl

@[simp] theorem State.loadReg_A_a (s : State) (v : Byte) : (s.loadReg .A v).a = v := rfl
@[simp] theorem State.loadReg_A_x (s : State) (v : Byte) : (s.loadReg .A v).x = s.x := rfl
@[simp] theorem State.loadReg_A_sp (s : State) (v : Byte) : (s.loadReg .A v).sp = s.sp := rfl
@[simp] theorem State.loadReg_A_p (s : State) (v : Byte) : (s.loadReg .A v).p = (s.updateNZ v).p := rfl
@[simp] theorem State.loadReg_X_a (s : State) (v : Byte) : (s.loadReg .X v).a = s.a := rfl
@[simp] theorem State.loadReg_X_x (s : State) (v : Byte) : (s.loadReg .X v).x = v := rfl
@[simp] theorem State.loadReg_X_sp (s : State) (v : Byte) : (s.loadReg .X v).sp = s.sp := rfl
@[simp] theorem State.loadReg_X_p (s : State) (v : Byte) : (s.loadReg .X v).p = (s.updateNZ v).p := rfl

@[simp] theorem State.beginFrame_a (s : State) : (s.beginFrame).a = s.a := rfl
@[simp] theorem State.beginFrame_x (s : State) : (s.beginFrame).x = s.x := rfl
@[simp] theorem State.beginFrame_sp (s : State) : (s.beginFrame).sp = s.sp := rfl
@[simp] theorem State.beginFrame_p (s : State) : (s.beginFrame).p = s.p := rfl
@[simp] theorem State.beginFrame_pc (s : State) : (s.beginFrame).pc = s.pc := rfl
@[simp] theorem State.beginFrame_ppuStatus (s : State) : (s.beginFrame).ppuStatus = s.ppuStatus := rfl
@[simp] theorem State.beginFrame_ppuController (s : State) : (s.beginFrame).ppuController = s.ppuController := rfl
@[simp] theorem State.beginFrame_cart (s : State) : (s.beginFrame).cart = s.cart := rfl
@[simp] theorem State.beginFrame_phase (s : State) : (s.beginFrame).phase = s.phase.toggle := rfl
@[simp] theorem State.beginFrame_fault (s : State) : (s.beginFrame).fault = s.fault := rfl
@[simp] theorem State.beginFrame_cycles (s : State) : (s.beginFrame).cycles = 0 := rfl
@[simp] theorem State.beginFrame_freeCount (s : State) : (s.beginFrame).freeCount = s.freeCount := rfl

@[simp] theorem State.endFrame_a (s : State) : (s.endFrame).a = s.a := rfl
@[simp] theorem State.endFrame_x (s : State) : (s.endFrame).x = s.x := rfl
@[simp] theorem State.endFrame_sp (s : State) : (s.endFrame).sp = s.sp := rfl
@[simp] theorem State.endFrame_p (s : State) : (s.endFrame).p = s.p := rfl
@[simp] theorem State.endFrame_pc (s : State) : (s.endFrame).pc = s.pc := rfl
@[simp] theorem State.endFrame_ppuStatus (s : State) : (s.endFrame).ppuStatus = s.ppuStatus := rfl
@[simp] theorem State.endFrame_ppuController (s : State) : (s.endFrame).ppuController = s.ppuController := rfl
@[simp] theorem State.endFrame_cart (s : State) : (s.endFrame).cart = s.cart := rfl
@[simp] theorem State.endFrame_phase (s : State) : (s.endFrame).phase = s.phase := rfl
@[simp] theorem State.endFrame_fault (s : State) : (s.endFrame).fault = s.fault := rfl
@[simp] theorem State.endFrame_cycles (s : State) : (s.endFrame).cycles = 0 := rfl
@[simp] theorem State.endFrame_freeCount (s : State) : (s.endFrame).freeCount = s.freeCount := rfl

@[simp] theorem setPpuStatus_a (v : Byte) (s : State) : (setPpuStatus v s).a = s.a := rfl
@[simp] theorem setPpuStatus_x (v : Byte) (s : State) : (setPpuStatus v s).x = s.x := rfl
@[simp] theorem setPpuStatus_sp (v : Byte) (s : State) : (setPpuStatus v s).sp = s.sp := rfl
@[simp] theorem setPpuStatus_p (v : Byte) (s : State) : (setPpuStatus v s).p = s.p := rfl
@[simp] theorem setPpuStatus_pc (v : Byte) (s : State) : (setPpuStatus v s).pc = s.pc := rfl
@[simp] theorem setPpuStatus_ppuStatus (v : Byte) (s : State) : (setPpuStatus v s).ppuStatus = v := rfl
@[simp] theorem setPpuStatus_ppuController (v : Byte) (s : State) : (setPpuStatus v s).ppuController = s.ppuController := rfl
@[simp] theorem setPpuStatus_cart (v : Byte) (s : State) : (setPpuStatus v s).cart = s.cart := rfl
@[simp] theorem setPpuStatus_phase (v : Byte) (s : State) : (setPpuStatus v s).phase = s.phase := rfl
@[simp] theorem setPpuStatus_fault (v : Byte) (s : State) : (setPpuStatus v s).fault = s.fault := rfl
@[simp] theorem setPpuStatus_cycles (v : Byte) (s : State) : (setPpuStatus v s).cycles = s.cycles := rfl
@[simp] theorem setPpuStatus_freeCount (v : Byte) (s : State) : (setPpuStatus v s).freeCount = s.freeCount := rfl

@[simp] theorem recordFault_ppuStatus (f : Fault) (s : State) : (recordFault f s).ppuStatus = s.ppuStatus := rfl
@[simp] theorem recordFault_ppuController (f : Fault) (s : State) : (recordFault f s).ppuController = s.ppuController := rfl
@[simp] theorem recordFault_cart (f : Fault) (s : State) : (recordFault f s).cart = s.cart := rfl
@[simp] theorem recordFault_phase (f : Fault) (s : State) : (recordFault f s).phase = s.phase := rfl
@[simp] theorem recordFault_fault (f : Fault) (s : State) : (recordFault f s).fault = some f := rfl
@[simp] theorem recordFault_freeCount (f : Fault) (s : State) : (recordFault f s).freeCount = s.freeCount + 5 := rfl
@[simp] theorem recordFault_cycles (f : Fault) (s : State) : (recordFault f s).cycles = 0 := rfl

@[simp] theorem recordVectorFault_a (f : Fault) (s : State) : (recordVectorFault f s).a = s.a := rfl
@[simp] theorem recordVectorFault_x (f : Fault) (s : State) : (recordVectorFault f s).x = s.x := rfl
@[simp] theorem recordVectorFault_p (f : Fault) (s : State) : (recordVectorFault f s).p = s.p := rfl
@[simp] theorem recordVectorFault_ppuStatus (f : Fault) (s : State) : (recordVectorFault f s).ppuStatus = s.ppuStatus := rfl
@[simp] theorem recordVectorFault_ppuController (f : Fault) (s : State) : (recordVectorFault f s).ppuController = s.ppuController := rfl
@[simp] theorem recordVectorFault_cart (f : Fault) (s : State) : (recordVectorFault f s).cart = s.cart := rfl
@[simp] theorem recordVectorFault_phase (f : Fault) (s : State) : (recordVectorFault f s).phase = s.phase := rfl
@[simp] theorem recordVectorFault_freeCount (f : Fault) (s : State) : (recordVectorFault f s).freeCount = s.freeCount + 2 := rfl
@[simp] theorem recordVectorFault_cycles (f : Fault) (s : State) : (recordVectorFault f s).cycles = s.cycles := rfl
@[simp] theorem recordVectorFault_fault (f : Fault) (s : State) : (recordVectorFault f s).fault = some f := rfl

end Sys2Proof.Machine
end

