-- ==== Sys2Proof/Laws/Bus.lean ====
section
/-! SUPPORT. The bus: what a read depends on, everything a write can do, and one inversion lemma per
transaction of an instruction. -/

namespace Sys2Proof.Machine

/-- A read depends on the cartridge and `ppuStatus` alone. -/
theorem busRead_congr {s t : State} (hc : t.cart = s.cart) (hp : t.ppuStatus = s.ppuStatus) (addr : Word) :
    busRead t addr = busRead s addr := by
  unfold busRead mapperRead
  rw [hc, hp]

@[simp] theorem busRead_charge (s : State) (addr : Word) : busRead s.charge addr = busRead s addr := rfl
@[simp] theorem busRead_fetched (s : State) (n : Nat) (addr : Word) :
    busRead (s.fetched n) addr = busRead s addr := rfl
@[simp] theorem busRead_setPc (s : State) (v addr : Word) : busRead (s.setPc v) addr = busRead s addr := rfl

/-- Everything a bus write that succeeds can do: it sets `ppuController` at 0x2000, or does nothing. -/
theorem busWrite_ok {s t : State} {addr : Word} {v : Byte} (h : busWrite s addr v = .ok t) :
    (addr = 0x2000 ∧ t = { s with ppuController := v }) ∨
      (addr ≠ 0x2000 ∧ 0x8000 ≤ addr.toNat ∧ t = s ∧ ∃ c, HasNrom s c) := by
  unfold busWrite at h
  split at h
  · exact .inl ⟨‹_›, by cases h; rfl⟩
  · refine .inr ⟨‹_›, ?_⟩
    unfold mapperWrite at h
    split at h
    · cases h
    · rename_i c hc
      split at h
      · unfold nromWrite at h
        split at h
        · cases h
          exact ⟨‹_›, rfl, c, hc, ‹_›⟩
        · cases h
      · cases h

/-- A read that answers a byte, then goes on. -/
theorem withRead_next {s t : State} {addr : Word} {k : Byte → State → Out} :
    withRead s addr k = .next t ↔ ∃ v, busRead s addr = .ok v ∧ k v s.charge = .next t := by
  unfold withRead
  split <;> rename_i h <;> simp [h]
  rename_i e
  cases e <;> simp [Stop.toOutcome]

/-- A dummy read goes on only where the read succeeds. -/
theorem withDummyRead_next {s t : State} {addr : Word} {k : State → Out} :
    withDummyRead s addr k = .next t ↔ ∃ v, busRead s addr = .ok v ∧ k s.charge = .next t := by
  unfold withDummyRead
  rw [withRead_next]

/-- A write that succeeds, then goes on. -/
theorem withWrite_next {s t : State} {addr : Word} {v : Byte} {k : State → Out} :
    withWrite s addr v k = .next t ↔ ∃ u, busWrite s addr v = .ok u ∧ k u.charge = .next t := by
  unfold withWrite
  split <;> rename_i h <;> simp [h]
  rename_i e
  cases e <;> simp [Stop.toOutcome]

/-- A transaction that faults ends the step with its fault (00_scope.md R14). -/
theorem withRead_error {s : State} {addr : Word} {k : Byte → State → Out} {e : Stop}
    (h : busRead s addr = .error e) : withRead s addr k = e.toOutcome := by
  simp [withRead, h]

theorem withDummyRead_error {s : State} {addr : Word} {k : State → Out} {e : Stop}
    (h : busRead s addr = .error e) : withDummyRead s addr k = e.toOutcome :=
  withRead_error h

theorem withWrite_error {s : State} {addr : Word} {v : Byte} {k : State → Out} {e : Stop}
    (h : busWrite s addr v = .error e) : withWrite s addr v k = e.toOutcome := by
  simp [withWrite, h]

theorem withRead_ok {s : State} {addr : Word} {k : Byte → State → Out} {v : Byte}
    (h : busRead s addr = .ok v) : withRead s addr k = k v s.charge := by
  simp [withRead, h]

theorem withDummyRead_ok {s : State} {addr : Word} {k : State → Out} {v : Byte}
    (h : busRead s addr = .ok v) : withDummyRead s addr k = k s.charge :=
  withRead_ok h

theorem withWrite_ok {s u : State} {addr : Word} {v : Byte} {k : State → Out}
    (h : busWrite s addr v = .ok u) : withWrite s addr v k = k u.charge := by
  simp [withWrite, h]

/-- A fetched byte is the byte at PC, and the state after it is `fetched 1`. -/
theorem fetchByte_ok {s t : State} {b : Byte} :
    fetchByte s = .ok (b, t) ↔ busRead s s.pc = .ok b ∧ t = s.fetched 1 := by
  unfold fetchByte
  split <;> rename_i h <;> simp [h, eq_comm]

theorem fetchByte_error {s : State} {e : Stop} : fetchByte s = .error e ↔ busRead s s.pc = .error e := by
  unfold fetchByte
  split <;> rename_i h <;> simp [h]

end Sys2Proof.Machine
end

