-- ==== Sys2Proof/Laws/Flags.lean ====
section
/-! SUPPORT. The bits of P: what setting one flag does to each flag, and the N/Z rule flag by flag. -/

namespace Sys2Proof.Machine

theorem Flag.bit_lt (f : Flag) : f.bit < 8 := by cases f <;> decide

theorem Flag.bit_inj {f g : Flag} (h : f.bit = g.bit) : f = g := by
  cases f <;> cases g <;> first | rfl | cases h

/-- A bit of a byte with one bit set. -/
theorem getLsbD_withBit (v : Byte) {n k : Nat} (b : Bool) (hn : n < 8) (hk : k < 8) :
    (withBit v n b).getLsbD k = if k = n then b else v.getLsbD k := by
  unfold withBit
  by_cases h : k = n
  · subst h
    cases b <;> simp [hk]
  · rw [if_neg h]
    cases b
    · simp only [Bool.false_eq_true, if_false, BitVec.getLsbD_and, BitVec.getLsbD_not,
        BitVec.getLsbD_shiftLeft]
      by_cases hlt : k < n
      · simp [hk, hlt]
      · have : k - n ≠ 0 := by omega
        simp [hk, hlt, this]
    · simp only [if_true, BitVec.getLsbD_or, BitVec.getLsbD_shiftLeft]
      by_cases hlt : k < n
      · simp [hlt]
      · have : k - n ≠ 0 := by omega
        simp [hlt, this]

@[simp] theorem State.flag_setFlag (s : State) (f g : Flag) (b : Bool) :
    (s.setFlag f b).flag g = if g = f then b else s.flag g := by
  unfold State.flag
  rw [State.setFlag_p, getLsbD_withBit _ _ f.bit_lt g.bit_lt]
  by_cases h : g = f
  · simp [h]
  · rw [if_neg h, if_neg (fun hb => h (Flag.bit_inj hb))]

/-- The N/Z rule, flag by flag. -/
@[simp] theorem State.flag_updateNZ (s : State) (r : Byte) (g : Flag) :
    (s.updateNZ r).flag g =
      if g = .N then r.getLsbD 7 else if g = .Z then r == 0 else s.flag g := by
  unfold State.updateNZ
  rw [State.flag_setFlag, State.flag_setFlag]

/-- The flags depend on P alone. -/
theorem State.flag_of_p {s t : State} (h : t.p = s.p) (g : Flag) : t.flag g = s.flag g := by
  unfold State.flag
  rw [h]

@[simp] theorem State.flag_setPc (s : State) (v : Word) (g : Flag) : (s.setPc v).flag g = s.flag g := rfl
@[simp] theorem State.flag_charge (s : State) (g : Flag) : s.charge.flag g = s.flag g := rfl
@[simp] theorem State.flag_fetched (s : State) (n : Nat) (g : Flag) : (s.fetched n).flag g = s.flag g := rfl

@[simp] theorem State.flag_loadReg_A (s : State) (v : Byte) (g : Flag) :
    (s.loadReg .A v).flag g = (s.updateNZ v).flag g := rfl
@[simp] theorem State.flag_loadReg_X (s : State) (v : Byte) (g : Flag) :
    (s.loadReg .X v).flag g = (s.updateNZ v).flag g := rfl
@[simp] theorem State.flag_writeReg_SP (s : State) (v : Byte) (g : Flag) :
    (s.writeReg .SP v).flag g = s.flag g := rfl

end Sys2Proof.Machine
end

