-- ==== Sys2Proof/Laws/Step.lean ====
section
/-! SUPPORT. Everything a step can do, said once: the table's lookup, the fetch as a read of the encoding,
and the inversion of a step and of each meaning. -/

namespace Sys2Proof

/-- The halves of a joined word. -/
@[simp] theorem hi8_joinWord (hi lo : Byte) : hi8 (joinWord hi lo) = hi := by
  unfold hi8 joinWord
  rw [BitVec.extractLsb'_append_eq_left]

@[simp] theorem lo8_joinWord (hi lo : Byte) : lo8 (joinWord hi lo) = lo := by
  unfold lo8 joinWord
  rw [BitVec.extractLsb'_append_eq_right]

/-- A word is its halves joined. -/
@[simp] theorem joinWord_hi8_lo8 (v : Word) : joinWord (hi8 v) (lo8 v) = v := by
  apply BitVec.eq_of_getLsbD_eq
  intro i hi
  simp only [joinWord, hi8, lo8, BitVec.getLsbD_append, BitVec.getLsbD_extractLsb']
  by_cases h : i < 8
  · simp [h]
  · simp only [h, decide_false]
    have h1 : i - 8 < 8 := by omega
    simp [h1, show 8 + (i - 8) = i by omega]

/-- A word is two bytes joined exactly when they are its halves. -/
theorem joinWord_eq_iff {hi lo : Byte} {v : Word} : joinWord hi lo = v ↔ lo = lo8 v ∧ hi = hi8 v := by
  constructor
  · rintro rfl
    simp
  · rintro ⟨rfl, rfl⟩
    simp

theorem joinWord_toNat (hi lo : Byte) : (joinWord hi lo).toNat = hi.toNat * 256 + lo.toNat := by
  unfold joinWord
  rw [BitVec.toNat_append, Nat.shiftLeft_eq, Nat.mul_comm, ← Nat.two_pow_add_eq_or_of_lt lo.isLt, Nat.mul_comm]

/-- A byte the table has selects the row of its entry, and only that entry's opcode selects it. -/
theorem lookupOpcode_eq_some {b : Byte} {r : OpcodeRow} :
    lookupOpcode b = some r ↔ ∃ op, r = rowOf op ∧ b = (rowOf op).opcode := by
  constructor
  · intro h
    simp only [lookupOpcode, opcodeTable, findRow] at h
    split_ifs at h <;> cases h <;> exact ⟨_, rfl, Eq.symm ‹_›⟩
  · rintro ⟨op, rfl, rfl⟩
    cases op <;> rfl

end Sys2Proof

namespace Sys2Proof.Machine

theorem pc_add_two (v : Word) : v + 1#16 + 1#16 = v + 2#16 := by rw [BitVec.add_assoc]; rfl

/-- The operand fetches as reads of the bytes at PC. -/
theorem fetchOperands_eq (f : Format) (s : State) :
    fetchOperands f s =
      match f with
      | .implied => .ok (0, 0)
      | .immediate => (busRead s s.pc).map fun b => (b, 0)
      | .relative => (busRead s s.pc).map fun b => (b, 0)
      | .absolute =>
        match busRead s s.pc with
        | .error e => .error e
        | .ok lo => (busRead s (s.pc + 1)).map fun hi => (lo, hi) := by
  have h1 : ∀ t : State, fetchByte t = (busRead t t.pc).map fun b => (b, t.fetched 1) := by
    intro t
    unfold fetchByte
    cases busRead t t.pc <;> rfl
  cases f <;> simp only [fetchOperands, h1]
  · cases busRead s s.pc <;> rfl
  · cases busRead s s.pc with
    | error e => rfl
    | ok lo =>
      simp only [Except.map, busRead_fetched, State.fetched_pc]
      cases busRead s (s.pc + 1) <;> rfl
  · cases busRead s s.pc <;> rfl

/-- The fetch after an opcode byte that can be read. -/
theorem fetchInstr_of_opcode {s : State} {b : Byte} (hb : busRead s s.pc = .ok b) :
    fetchInstr s =
      match lookupOpcode b with
      | none => .error (.fault (.illegalOpcode b s.pc))
      | some r => (fetchOperands r.format (s.fetched 1)).map fun x => r.op.withOperands x.1 x.2 := by
  unfold fetchInstr
  rw [fetchByte_ok.mpr ⟨hb, rfl⟩]
  dsimp only
  generalize lookupOpcode b = o
  cases o with
  | none => rfl
  | some r =>
    dsimp only
    generalize fetchOperands r.format (s.fetched 1) = x
    cases x <;> rfl

/-- An opcode byte that cannot be read ends the fetch. -/
theorem fetchInstr_of_error {s : State} {e : Stop} (h : busRead s s.pc = .error e) :
    fetchInstr s = .error e := by
  unfold fetchInstr
  rw [fetchByte_error.mpr h]

/-- An instruction is fetched exactly where its own encoding can be read. -/
theorem fetchInstr_ok {s : State} {i : Instr} :
    fetchInstr s = .ok i ↔ readBytes s s.pc i.length = .ok (encode i) := by
  cases hb : busRead s s.pc with
  | error e =>
    rw [fetchInstr_of_error hb]
    cases i <;> simp [Instr.length, Instr.row, Instr.op, rowOf, Format.length, readBytes, hb]
  | ok b =>
    rw [fetchInstr_of_opcode hb]
    cases hl : lookupOpcode b with
    | none =>
      have hne : ∀ op, b ≠ (rowOf op).opcode := fun op h => by
        rw [lookupOpcode_eq_some.mpr ⟨op, rfl, h⟩] at hl; cases hl
      have hi := hne i.op
      constructor
      · intro h; cases h
      · intro h
        cases h1 : busRead s (s.pc + 1#16) <;> cases h2 : busRead s (s.pc + 2#16) <;> cases i <;>
          simp_all [Instr.length, Instr.row, Instr.op, rowOf, Format.length, readBytes, encode, pc_add_two]
    | some r =>
      obtain ⟨op, rfl, rfl⟩ := lookupOpcode_eq_some.mp hl
      simp only [fetchOperands_eq]
      cases h1 : busRead s (s.pc + 1#16) <;> cases h2 : busRead s (s.pc + 2#16) <;>
      cases op <;> cases i <;>
        simp [Instr.length, Instr.row, Instr.op, rowOf, Format.length, readBytes, hb, h1, h2, Except.map,
          Op.withOperands, encode, pc_add_two, joinWord_eq_iff]

/-! ### A step -/

/-- A step of a running machine: the fetch, then the meaning. -/
theorem step_of_running {s : State} (h : Running s) :
    step s = match fetchInstr s with
      | .error e => e.toOutcome
      | .ok i => exec i s := by
  obtain ⟨hc, hf⟩ := h
  unfold step fetch
  cases hs : s.cart with
  | none => exact absurd hs hc
  | some c =>
    rw [hf]
    dsimp only
    generalize fetchInstr s = x
    cases x <;> rfl

/-- A step whose instruction is known is its meaning. -/
theorem step_of_fetch {s : State} {i : Instr} (h : Running s) (hi : fetchInstr s = .ok i) :
    step s = exec i s := by
  rw [step_of_running h, hi]

/-- A step whose fetch ends is the fault of that fetch. -/
theorem step_of_fetch_error {s : State} {e : Stop} (h : Running s) (he : fetchInstr s = .error e) :
    step s = e.toOutcome := by
  rw [step_of_running h, he]

theorem step_of_no_cart {s : State} (h : s.cart = none) : step s = .next s := by
  unfold step fetch
  rw [h]

theorem step_of_fault {s : State} {f : Fault} (hc : s.cart ≠ none) (hf : s.fault = some f) :
    step s = .fault f := by
  unfold step fetch
  cases hs : s.cart with
  | none => exact absurd hs hc
  | some c => rw [hf]; rfl

theorem Stop.toOutcome_ne_next {e : Stop} {s : State} : e.toOutcome ≠ .next s := by
  cases e <;> simp [Stop.toOutcome]

/-- Everything a step that goes on can be: the idle machine, or one instruction of a running one. -/
theorem step_next {s t : State} (h : step s = .next t) :
    (s.cart = none ∧ t = s) ∨ (Running s ∧ ∃ i, fetchInstr s = .ok i ∧ exec i s = .next t) := by
  cases hc : s.cart with
  | none =>
    rw [step_of_no_cart hc] at h
    exact .inl ⟨rfl, by cases h; rfl⟩
  | some c =>
    have hne : s.cart ≠ none := by simp [hc]
    cases hf : s.fault with
    | some f => rw [step_of_fault hne hf] at h; cases h
    | none =>
      rw [step_of_running ⟨hne, hf⟩] at h
      split at h
      · exact absurd h Stop.toOutcome_ne_next
      · exact .inr ⟨⟨hne, hf⟩, _, ‹_›, h⟩

/-! ### What each meaning can answer -/

/-- The shape of an implied instruction: it completes exactly where its dummy read does. -/
theorem impliedThen_next {change : State → State} {s t : State} :
    impliedThen change s = .next t ↔
      (∃ v, busRead s (s.pc + 1) = .ok v) ∧ t = change (s.fetched 1).charge := by
  unfold impliedThen
  rw [withDummyRead_next]
  simp [eq_comm]

theorem impliedThen_error {change : State → State} {s : State} {e : Stop}
    (h : busRead s (s.pc + 1) = .error e) : impliedThen change s = e.toOutcome :=
  withDummyRead_error h

/-- SEI completes exactly where its dummy read does. -/
theorem exec_sei_next {s t : State} :
    exec .sei s = .next t ↔ (∃ v, busRead s (s.pc + 1) = .ok v) ∧ t = (s.fetched 1).charge.setFlag .I true :=
  impliedThen_next (change := fun t => t.setFlag .I true)

/-- TXS completes exactly where its dummy read does. -/
theorem exec_txs_next {s t : State} :
    exec .txs s = .next t ↔ (∃ v, busRead s (s.pc + 1) = .ok v) ∧ t = (s.fetched 1).charge.writeReg .SP s.x :=
  impliedThen_next (change := fun t => t.writeReg .SP (t.readReg .X))

/-- CLD completes exactly where its dummy read does. -/
theorem exec_cld_next {s t : State} :
    exec .cld s = .next t ↔ (∃ v, busRead s (s.pc + 1) = .ok v) ∧ t = (s.fetched 1).charge.setFlag .D false :=
  impliedThen_next (change := fun t => t.setFlag .D false)

theorem exec_ldaImm_next {imm8 : Byte} {s t : State} :
    exec (.ldaImm imm8) s = .next t ↔ t = (s.fetched 2).loadReg .A imm8 := by
  simp [exec, execLdaImm, eq_comm]

theorem exec_ldxImm_next {imm8 : Byte} {s t : State} :
    exec (.ldxImm imm8) s = .next t ↔ t = (s.fetched 2).loadReg .X imm8 := by
  simp [exec, execLdxImm, eq_comm]

theorem exec_ldaAbs_next {addr : Word} {s t : State} :
    exec (.ldaAbs addr) s = .next t ↔
      ∃ v, busRead s addr = .ok v ∧ t = (s.fetched 3).charge.loadReg .A v := by
  unfold exec execLdaAbs
  rw [withRead_next]
  simp [eq_comm]

theorem exec_staAbs_next {addr : Word} {s t : State} :
    exec (.staAbs addr) s = .next t ↔ ∃ u, busWrite (s.fetched 3) addr s.a = .ok u ∧ t = u.charge := by
  unfold exec execStaAbs
  rw [withWrite_next]
  simp [eq_comm]

/-- Everything a BPL that completes can do: not taken, taken in the page, or taken across pages. -/
theorem exec_bpl_next {rel8 : Byte} {s t : State} (h : exec (.bpl rel8) s = .next t) :
    (s.flag .N = true ∧ t = s.fetched 2) ∨
    (s.flag .N = false ∧ samePage (s.pc + 2) (branchTarget (s.pc + 2) rel8) = true ∧
      t = (s.fetched 2).charge.setPc (branchTarget (s.pc + 2) rel8)) ∨
    (s.flag .N = false ∧ samePage (s.pc + 2) (branchTarget (s.pc + 2) rel8) = false ∧
      t = (s.fetched 2).charge.charge.setPc (branchTarget (s.pc + 2) rel8)) := by
  unfold exec execBpl at h
  dsimp only at h
  split at h
  · cases h
    exact .inl ⟨‹_›, rfl⟩
  · rename_i hN
    obtain ⟨v, hv, h⟩ := withDummyRead_next.mp h
    have hN' : s.flag .N = false := by simpa using hN
    split at h
    · cases h
      exact .inr (.inl ⟨hN', ‹_›, rfl⟩)
    · rename_i hp
      obtain ⟨w, hw, h⟩ := withDummyRead_next.mp h
      cases h
      exact .inr (.inr ⟨hN', by simpa using hp, rfl⟩)

end Sys2Proof.Machine
end

