-- ==== Sys2Proof/Laws/Host.lean ====
section
/-! SUPPORT. Runs of steps, one iteration of the frame loop, the reset and the loader: one lemma per way each
can go. -/

namespace Sys2Proof.Machine

/-! ### Runs of steps -/

theorem run_next (M : Host.Core) {s t : M.State} (n : Nat) (h : M.step s = .next t) :
    M.run (n + 1) s = M.run n t := by
  simp [Host.Core.run, h]

theorem run_fault (M : Host.Core) {s : M.State} {f : M.Fault} (n : Nat) (h : M.step s = .fault f) :
    M.run (n + 1) s = .fault f := by
  simp [Host.Core.run, h]

theorem run_refused (M : Host.Core) {s : M.State} {r : M.Refusal} (n : Nat) (h : M.step s = .refused r) :
    M.run (n + 1) s = .refused r := by
  simp [Host.Core.run, h]

theorem run_succ_next {s t : State} (n : Nat) (h : step s = .next t) :
    Sys2Proof.core.run (n + 1) s = Sys2Proof.core.run n t :=
  run_next Sys2Proof.core n h

theorem run_succ_fault {s : State} {f : Fault} (n : Nat) (h : step s = .fault f) :
    Sys2Proof.core.run (n + 1) s = .fault f :=
  run_fault Sys2Proof.core n h

theorem run_succ_refused {s : State} {r : Refusal} (n : Nat) (h : step s = .refused r) :
    Sys2Proof.core.run (n + 1) s = .refused r :=
  run_refused Sys2Proof.core n h

/-- A run of n + 1 steps that goes on starts with a step that goes on. -/
theorem run_succ_inv {s u : State} {n : Nat} (h : Sys2Proof.core.run (n + 1) s = .next u) :
    ∃ t, step s = .next t ∧ Sys2Proof.core.run n t = .next u := by
  cases hs : step s with
  | next t => exact ⟨t, rfl, by rw [← run_succ_next n hs]; exact h⟩
  | fault f => rw [run_succ_fault n hs] at h; cases h
  | refused r => rw [run_succ_refused n hs] at h; cases h

/-! ### The frame loop -/

theorem runFrame_done {fuel budget : Nat} {s : State} (h : budget ≤ s.cycles) :
    runFrame fuel budget s = (.success, s) := by
  cases fuel with
  | zero => rfl
  | succ n => rw [runFrame, if_neg (by omega)]

theorem runFrame_next {fuel budget : Nat} {s t : State} (hb : s.cycles < budget) (h : step s = .next t) :
    runFrame (fuel + 1) budget s = runFrame fuel budget t := by
  rw [runFrame, if_pos hb, h]

theorem runFrame_fault {fuel budget : Nat} {s : State} {f : Fault} (hb : s.cycles < budget)
    (h : step s = .fault f) : runFrame (fuel + 1) budget s = (.fault f, recordFault f s) := by
  rw [runFrame, if_pos hb, h]

/-- A call of a running machine is the loop between the start and the end of a frame. -/
theorem stepFrame_of_running {s : State} (h : Running s) :
    stepFrame s =
      ((runFrame (frameBudget s.phase) (frameBudget s.phase) s.beginFrame).1,
        (runFrame (frameBudget s.phase) (frameBudget s.phase) s.beginFrame).2.endFrame) := by
  unfold stepFrame
  cases hc : s.cart with
  | none => exact absurd hc h.1
  | some c => rw [h.2]

/-- A call of a faulted machine returns the fault and toggles the phase. -/
theorem stepFrame_of_fault {s : State} {f : Fault} (hc : s.cart ≠ none) (hf : s.fault = some f) :
    stepFrame s = (.fault f, s.beginFrame) := by
  unfold stepFrame
  cases h : s.cart with
  | none => exact absurd h hc
  | some c => rw [hf]

/-! ### Reset and load -/

theorem memRead16_ok {s : State} {addr : Word} {lo hi : Byte} (h1 : busRead s addr = .ok lo)
    (h2 : busRead s (addr + 1) = .ok hi) : memRead16 s addr = .ok (joinWord hi lo) := by
  unfold memRead16
  rw [h1]
  dsimp only
  rw [h2]

theorem memRead16_error {s : State} {addr : Word} {e : Stop} (h : busRead s addr = .error e) :
    memRead16 s addr = .error e := by
  unfold memRead16
  rw [h]

theorem resetCpu_ok {s : State} {v : Word}
    (h : memRead16 { s with phase := Phase.even } resetVector = .ok v) :
    resetCpu s = (.success, { s with phase := Phase.even, sp := resetSp, pc := v, fault := none }) := by
  unfold resetCpu
  dsimp only
  rw [h]

theorem resetCpu_fault {s : State} {f : Fault}
    (h : memRead16 { s with phase := Phase.even } resetVector = .error (.fault f)) :
    resetCpu s = (.vectorFault f, recordVectorFault f { s with phase := Phase.even }) := by
  unfold resetCpu
  dsimp only
  rw [h]

/-- A reset keeps the cartridge and sets the phase. -/
theorem resetCpu_keeps (s : State) : (resetCpu s).2.cart = s.cart ∧ (resetCpu s).2.phase = .even := by
  unfold resetCpu
  dsimp only
  split <;> exact ⟨rfl, rfl⟩

/-- The cartridge of an accepted image agrees with its bank counts. -/
theorem cartOf_wellFormed (image : List Byte) (h : acceptedImage image) : (cartOf image).wellFormed = true := by
  obtain ⟨_, _, hlen⟩ := h
  have hp : declaredPrg image = (image.getD 4 0).toNat * 16384 := rfl
  have hc : declaredChr image = (image.getD 5 0).toNat * 8192 := rfl
  have h1 : (cartOf image).prg.wf = true := Memory.ofBytes_wf _ _
  have h2 : (cartOf image).prg.below (cartOf image).prgSize = true := by
    apply Memory.ofBytes_below
    have : (cartOf image).prgSize = declaredPrg image := rfl
    simp only [List.length_take, List.length_drop]
    omega
  have h3 : (cartOf image).chrWf = true := by
    unfold Cart.chrWf cartOf
    dsimp only
    by_cases hz : headerChrBanks image = 0
    · simp [hz]
    · have hb : Memory.below (declaredChr image)
          (Memory.ofBytes 0 ((image.drop (16 + declaredPrg image)).take (declaredChr image))) = true := by
        apply Memory.ofBytes_below
        simp only [List.length_take, List.length_drop]
        omega
      rw [if_neg hz]
      simp only [bne, Bool.and_eq_true, Memory.ofBytes_wf, Cart.chrSize]
      exact ⟨⟨by simpa using hz, trivial⟩, hb⟩
  simp [Cart.wellFormed, h1, h2, h3]

/-- An accepted image is installed and the machine reset. -/
theorem loadROM_accepted {image : List Byte} {s : State} (h : acceptedImage image) :
    loadROM image s = resetCpu { s with cart := some (cartOf image) } := by
  obtain ⟨h1, h2, h3⟩ := h
  have hn : imageNeed image =
      16 + (image.getD 4 0).toNat * 16384 + (image.getD 5 0).toNat * 8192 := rfl
  unfold loadROM
  rw [if_neg (by omega), if_neg (by simp [inesMagic, h2]), if_neg (by omega)]

/-- Everything a load can do: refuse the image and change nothing, or install it and reset. -/
theorem loadROM_cases (image : List Byte) (s : State) :
    ((loadROM image s).2 = s ∧ ((loadROM image s).1 = .imageTooShort ∨ (loadROM image s).1 = .badMagic)) ∨
      (acceptedImage image ∧ loadROM image s = resetCpu { s with cart := some (cartOf image) }) := by
  have hn : imageNeed image =
      16 + (image.getD 4 0).toNat * 16384 + (image.getD 5 0).toNat * 8192 := rfl
  by_cases h1 : image.length < 16
  · exact .inl (by simp [loadROM, h1])
  · by_cases h2 : image.take 4 = inesMagic
    · by_cases h3 : image.length < imageNeed image
      · exact .inl (by simp [loadROM, h1, h2, h3])
      · have ha : acceptedImage image := ⟨by omega, h2, by omega⟩
        exact .inr ⟨ha, loadROM_accepted ha⟩
    · exact .inl (by simp [loadROM, h1, h2])

end Sys2Proof.Machine
end

