-- ==== Sys2Proof/Laws/PerInstr.lean ====
section
/-! SUPPORT. A fact about every instruction as syntax: its first encoded byte selects its own row of the
opcode table, and its encoding has the length that row's format gives (30_encoding.md R70, R78). -/

namespace Sys2Proof.Laws.EncodedLength

/-- The encoding starts with the opcode of the instruction's row and has its format's length. -/
def Statement (i : Instr) : Prop :=
  ∃ operand, encode i = i.row.opcode :: operand ∧ lookupOpcode i.row.opcode = some i.row ∧
    operand.length + 1 = i.length

theorem bpl (rel8 : Byte) : Statement (.bpl rel8) := ⟨[rel8], rfl, rfl, rfl⟩
theorem sei : Statement .sei := ⟨[], rfl, rfl, rfl⟩
theorem staAbs (addr : Word) : Statement (.staAbs addr) := ⟨[lo8 addr, hi8 addr], rfl, rfl, rfl⟩
theorem txs : Statement .txs := ⟨[], rfl, rfl, rfl⟩
theorem ldxImm (imm8 : Byte) : Statement (.ldxImm imm8) := ⟨[imm8], rfl, rfl, rfl⟩
theorem ldaImm (imm8 : Byte) : Statement (.ldaImm imm8) := ⟨[imm8], rfl, rfl, rfl⟩
theorem ldaAbs (addr : Word) : Statement (.ldaAbs addr) := ⟨[lo8 addr, hi8 addr], rfl, rfl, rfl⟩
theorem cld : Statement .cld := ⟨[], rfl, rfl, rfl⟩

end Sys2Proof.Laws.EncodedLength
end

