-- ==== Sys2Proof/Laws/Place.lean ====
section
/-! SUPPORT. Placing an instruction for the next step: the cartridge stays well formed, and the machine can
run. -/

namespace Sys2Proof.Machine

/-- An offset NROM gives lies in the buffer of a cartridge with a bank (20_memory.md R51). -/
theorem nromOffset_lt {c : Cart} {addr : Word} {off : Nat} (hb : c.prgBanks ≠ 0)
    (h : nromOffset c.prgBanks addr = some off) : off < c.prgSize := by
  have hn : c.prgBanks.toNat ≠ 0 := fun h0 => hb (BitVec.eq_of_toNat_eq (by simpa using h0))
  have hlt := addr.isLt
  unfold Cart.prgSize
  unfold nromOffset at h
  split_ifs at h with h1 h2 h3
  · have : c.prgBanks.toNat = 2 := by rw [h2]; rfl
    have := Option.some.inj h
    omega
  · have := Option.some.inj h
    omega
  · have := Option.some.inj h
    omega

/-- Placing bytes keeps the cartridge's identity and its form. -/
theorem placeBytes_wellFormed : ∀ (bs : List Byte) (c : Cart) (addr : Word), c.prgBanks ≠ 0 →
    c.wellFormed = true →
    (placeBytes c addr bs).wellFormed = true ∧ (placeBytes c addr bs).prgBanks = c.prgBanks ∧
      (placeBytes c addr bs).mapperId = c.mapperId
  | [], _, _, _, hw => ⟨hw, rfl, rfl⟩
  | b :: bs, c, addr, hb, hw => by
    unfold placeBytes
    split
    · exact placeBytes_wellFormed bs c (addr + 1) hb hw
    · rename_i off ho
      have hoff := nromOffset_lt hb ho
      unfold Cart.wellFormed at hw
      simp only [Bool.and_eq_true] at hw
      obtain ⟨⟨h1, h2⟩, h3⟩ := hw
      have hw' : Cart.wellFormed { c with prg := c.prg.write off b } = true := by
        unfold Cart.wellFormed
        simp only [Bool.and_eq_true]
        exact ⟨⟨Memory.write_wf h1, Memory.write_below h2 hoff⟩, h3⟩
      exact placeBytes_wellFormed bs _ (addr + 1) hb hw'

/-- A placed instruction leaves a machine that meets the invariant and can run, if the installed cartridge was
well formed. -/
theorem placeInstr_inv (bytes : List Byte) (s : State) (h : ∀ c, s.cart = some c → c.wellFormed = true) :
    (placeInstr bytes s).inv = true ∧ Running (placeInstr bytes s) := by
  have hc : (hostCart s).wellFormed = true ∧ (hostCart s).prgBanks ≠ 0 ∧ (hostCart s).mapperId = 0 := by
    unfold hostCart
    split
    · exact ⟨rfl, by decide, rfl⟩
    · rename_i c hs
      split
      · rename_i hm
        exact ⟨h c hs, hm.2, hm.1⟩
      · exact ⟨rfl, by decide, rfl⟩
  obtain ⟨hw, hb, hm⟩ := hc
  obtain ⟨p1, p2, p3⟩ := placeBytes_wellFormed bytes (hostCart s) (hostPc s) hb hw
  refine ⟨?_, by simp [placeInstr], rfl⟩
  simp only [State.inv, placeInstr, canRunCart, p1, p2, p3, hm]
  simpa using hb

end Sys2Proof.Machine
end

