-- ==== Sys2Proof/Tests/Slice0.lean ====
section
/-! SUPPORT. The model's own tests: what WellFormed refuses, words written out from the spec's encodings, the
spec's vectors (95_test_vectors.md) one step or one operation each, and for every obligation with hypotheses a
witness that meets them. Expected values come from the spec. -/

namespace Sys2Proof.Tests

open Sys2Proof Sys2Proof.Machine

/-! ### Helpers -/

/-- The outcome is a next state with a property. -/
def onNext (o : Out) (p : State → Bool) : Bool :=
  match o with
  | .next t => p t
  | .fault _ => false
  | .refused _ => false

/-- The outcome is this fault. -/
def onFault (o : Out) (f : Fault) : Bool :=
  match o with
  | .next _ => false
  | .fault g => g == f
  | .refused _ => false

theorem onFault_eq {o : Out} {f : Fault} (h : onFault o f = true) : o = .fault f := by
  cases o with
  | next t => cases h
  | fault g => rw [beq_iff_eq.mp h]
  | refused r => cases h

/-- A running machine with bytes at an address of a one-bank NROM cartridge, PC there, every register 0. -/
def machineAt (pc : Word) (bytes : List Byte) : State :=
  { State.reset with
    cart := some (placeBytes blankCart pc bytes)
    pc := pc }

/-- `machineAt` with N set in P. -/
def negativeAt (pc : Word) (bytes : List Byte) : State :=
  { machineAt pc bytes with p := 0x80 }

/-- A machine with a cartridge of a bank count and a mapper identifier, PRG[0] = 0x12, PRG[0x4000] = 0x34,
`ppuStatus` 0x5A. -/
def busMachine (banks mapper : Byte) : State :=
  { State.reset with
    ppuStatus := 0x5A
    cart := some { blankCart with prgBanks := banks, mapperId := mapper, prg := [(0, 0x12), (0x4000, 0x34)] } }

theorem readBytes_three {s : State} {a : Word} {b0 b1 b2 : Byte} (h0 : busRead s a = .ok b0)
    (h1 : busRead s (a + 1) = .ok b1) (h2 : busRead s (a + 2) = .ok b2) :
    readBytes s a 3 = .ok [b0, b1, b2] := by
  have h2' : busRead s (a + 1 + 1) = .ok b2 := by
    rw [BitVec.add_assoc]
    exact h2
  simp only [readBytes, h0, h1, h2']

/-- The 16 header bytes of an image with a PRG count, a CHR count, and bytes 6 and 7. -/
def header (prg chr b6 b7 : Byte) : List Byte :=
  [0x4E, 0x45, 0x53, 0x1A, prg, chr, b6, b7, 0, 0, 0, 0, 0, 0, 0, 0]

/-- An image of one PRG bank and one CHR bank of zero bytes (L-ld1). -/
def zeroImage : List Byte :=
  header 1 1 0 0 ++ List.replicate (16384 + 8192) 0

/-! ### WellFormed: an ill-formed term for each check -/

theorem test_wf_accepts :
    Cart.wellFormed ⟨1, 1, 0, false, [(0, 0xA9), (0x3FFF, 1)], some [(0x1FFF, 7)]⟩ = true := by decide
theorem test_wf_refuses_unsorted_prg :
    Cart.wellFormed ⟨1, 0, 0, false, [(1, 2), (0, 1)], none⟩ = false := by decide
theorem test_wf_refuses_repeated_address :
    Cart.wellFormed ⟨1, 0, 0, false, [(1, 2), (1, 3)], none⟩ = false := by decide
theorem test_wf_refuses_zero_entry :
    Cart.wellFormed ⟨1, 0, 0, false, [(1, 0)], none⟩ = false := by decide
theorem test_wf_refuses_prg_outside :
    Cart.wellFormed ⟨1, 0, 0, false, [(0x4000, 1)], none⟩ = false := by decide
theorem test_wf_refuses_chr_without_banks :
    Cart.wellFormed ⟨1, 0, 0, false, [], some []⟩ = false := by decide
theorem test_wf_refuses_missing_chr :
    Cart.wellFormed ⟨1, 1, 0, false, [], none⟩ = false := by decide
theorem test_wf_refuses_chr_outside :
    Cart.wellFormed ⟨1, 1, 0, false, [], some [(0x2000, 1)]⟩ = false := by decide
theorem test_wf_refuses_chr_zero_entry :
    Cart.wellFormed ⟨1, 1, 0, false, [], some [(3, 0)]⟩ = false := by decide

/-- The reach of a branch line at 0x8000 (R84): −128 and +127 from 0x8002, and one past each. -/
theorem test_wf_branch_reach :
    Asm.wellFormed 0x8000 (.bpl 0x7F82) = true ∧ Asm.wellFormed 0x8000 (.bpl 0x8081) = true ∧
      Asm.wellFormed 0x8000 (.bpl 0x7F81) = false ∧ Asm.wellFormed 0x8000 (.bpl 0x8082) = false := by decide

theorem test_reset_memory_wf : State.reset.inv = true ∧ blankCart.wellFormed = true := by decide

/-! ### Words from the spec's encodings (30_encoding.md R71, R74) -/

/-- 0001 0000, rel8. -/
theorem test_decode_bpl : decode [0b00010000, 0b11111011] = .ok (.bpl 0xFB, []) := by decide
/-- 0111 1000. -/
theorem test_decode_sei : decode [0b01111000, 0xD8] = .ok (.sei, [0xD8]) := by decide
/-- 1000 1101, low byte, high byte. -/
theorem test_decode_sta : decode [0b10001101, 0x34, 0x12] = .ok (.staAbs 0x1234, []) := by decide
/-- 1001 1010. -/
theorem test_decode_txs : decode [0b10011010] = .ok (.txs, []) := by decide
/-- 1010 0010, imm8. -/
theorem test_decode_ldx : decode [0b10100010, 0x80] = .ok (.ldxImm 0x80, []) := by decide
/-- 1010 1001, imm8. -/
theorem test_decode_lda_imm : decode [0b10101001, 0x7F] = .ok (.ldaImm 0x7F, []) := by decide
/-- 1010 1101, low byte, high byte. -/
theorem test_decode_lda_abs : decode [0b10101101, 0x02, 0x20] = .ok (.ldaAbs 0x2002, []) := by decide
/-- 1101 1000. -/
theorem test_decode_cld : decode [0b11011000] = .ok (.cld, []) := by decide

/-- R76's six named bytes and 0xFF are illegal; bytes that end early are refused by name. -/
theorem test_decode_refuses :
    ([0x00, 0x40, 0x4C, 0xEA, 0x85, 0xA0, 0xFF] : List Byte).all (fun b =>
      decide (decode [b, 0, 0] = .error (.illegalOpcode b))) = true ∧
    decode [] = .error .noBytes ∧ decode [0xAD, 0x02] = .error (.truncated .ldaAbs) ∧
    decode [0x10] = .error (.truncated .bpl) := by decide

/-- A table word: byte 0 is bits 7 to 0, byte 1 bits 15 to 8, byte 2 bits 23 to 16. -/
theorem test_table_word :
    decodeTableWord 8 0x10 = some (.bpl 0) ∧ decodeTableWord 24 0x20008D = some (.staAbs 0x2000) ∧
      decodeTableWord 8 0xEA = none := by decide

/-- The first step after reset runs a placed instruction. -/
theorem test_fetch_word :
    onNext (step (State.reset.withFetchWord 16 0x05A9)) (fun t => t.a == 0x05 && t.pc == 0x8002) = true ∧
      onNext (step (State.reset.withFetchWord 8 0x78)) (fun t => t.p == 0x04) = true := by decide

/-! ### Bus and NROM (vectors L-m) -/

/-- L-m1, L-m3, L-m6, L-m8: which bank the upper half is. -/
theorem test_nrom_banks :
    busRead (busMachine 1 0) 0x8000 = .ok 0x12 ∧ busRead (busMachine 1 0) 0xC000 = .ok 0x12 ∧
      busRead (busMachine 2 0) 0xC000 = .ok 0x34 ∧ busRead (busMachine 3 0) 0xC000 = .ok 0x12 := by decide
/-- L-m10, L-m12, L-m14, L-m17, L-m24: which fault. -/
theorem test_read_faults :
    busRead (busMachine 0 0) 0x8000 = .error (.fault (.prgOutOfRange 0x8000)) ∧
      busRead (busMachine 1 0) 0x7FFF = .error (.fault (.unsupportedAddress 0x7FFF)) ∧
      busRead (busMachine 1 0) 0x2000 = .error (.fault (.unsupportedAddress 0x2000)) ∧
      busRead (busMachine 1 0) 0x200A = .error (.fault (.unsupportedAddress 0x200A)) ∧
      busRead (busMachine 1 1) 0x0000 = .error (.fault (.unsupportedMapper 0x0000)) := by decide
/-- L-m11, L-m26: the interception comes first. -/
theorem test_status_read :
    busRead (busMachine 0 0) 0x2002 = .ok 0x5A ∧ busRead (busMachine 1 1) 0x2002 = .ok 0x5A := by decide
/-- L-m18 to L-m22, L-m25, L-m27. -/
theorem test_writes :
    busWrite (busMachine 1 0) 0x2000 0x90 = .ok { busMachine 1 0 with ppuController := 0x90 } ∧
      busWrite (busMachine 1 0) 0x2002 0x90 = .error (.fault (.unsupportedAddress 0x2002)) ∧
      busWrite (busMachine 1 0) 0xFFFF 0x90 = .ok (busMachine 1 0) ∧
      busWrite (busMachine 1 0) 0x7FFF 0x90 = .error (.fault (.unsupportedAddress 0x7FFF)) ∧
      busWrite (busMachine 1 1) 0x8000 0x90 = .error (.fault (.unsupportedMapper 0x8000)) ∧
      busWrite (busMachine 1 1) 0x2000 0x01 = .ok { busMachine 1 1 with ppuController := 0x01 } := by decide

/-! ### Instructions (vectors L-ld, L-la, L-sa, L-im, L-b, L-il) -/

/-- L-ld-a5: LDA #$00 with P = 0xFF leaves P = 0x7F. -/
theorem test_lda_imm_zero :
    onNext (step { machineAt 0x8000 [0xA9, 0x00] with p := 0xFF, a := 0x33 })
      (fun t => t.a == 0x00 && t.p == 0x7F && t.pc == 0x8002 && t.cycles == 2) = true := by decide
/-- L-ld-a6: LDA #$FF with P = 0x02 leaves P = 0x80. -/
theorem test_lda_imm_negative :
    onNext (step { machineAt 0x8000 [0xA9, 0xFF] with p := 0x02 }) (fun t => t.a == 0xFF && t.p == 0x80)
      = true := by decide
/-- L-ld-x2: LDX #$80 with P = 0x0C leaves P = 0x8C. -/
theorem test_ldx_imm :
    onNext (step { machineAt 0x8000 [0xA2, 0x80] with p := 0x0C, a := 0x33 })
      (fun t => t.x == 0x80 && t.p == 0x8C && t.a == 0x33 && t.cycles == 2) = true := by decide
/-- L-ld-c1: the operand fetch of an LDA # at 0xFFFF faults at 0x0000. -/
theorem test_lda_imm_wraps :
    onFault (step (machineAt 0xFFFF [0xA9])) (.unsupportedAddress 0x0000) = true := by decide
/-- L-ld-c2: code fetched from 0x2002. -/
theorem test_fetch_from_status :
    onFault (step { machineAt 0x2002 [] with ppuStatus := 0xA9 }) (.unsupportedAddress 0x2003) = true := by
  decide
/-- L-la4: LDA $C000 reads the mirror of PRG[0]. -/
theorem test_lda_abs_mirror :
    onNext (step (machineAt 0x8000 [0xAD, 0x00, 0xC0]))
      (fun t => t.a == 0xAD && t.p == 0x80 && t.pc == 0x8003 && t.cycles == 4) = true := by decide
/-- L-la3, L-la5: LDA $2002 reads `ppuStatus`; LDA $2000 faults. -/
theorem test_lda_abs_io :
    onNext (step { machineAt 0x8000 [0xAD, 0x02, 0x20] with ppuStatus := 0xC0 })
      (fun t => t.a == 0xC0 && t.ppuStatus == 0xC0) = true ∧
    onFault (step (machineAt 0x8000 [0xAD, 0x00, 0x20])) (.unsupportedAddress 0x2000) = true := by decide
/-- L-sa1: STA $2000 sets `ppuController`. -/
theorem test_sta_controller :
    onNext (step { machineAt 0x8000 [0x8D, 0x00, 0x20] with a := 0x10 })
      (fun t => t.ppuController == 0x10 && t.p == 0x00 && t.pc == 0x8003 && t.cycles == 4) = true := by decide
/-- L-sa2, L-sa3: STA $8000 is discarded; STA $2002 faults. -/
theorem test_sta_elsewhere :
    onNext (step { machineAt 0x8000 [0x8D, 0x00, 0x80] with a := 0x55 })
      (fun t => decide (busRead t 0x8000 = .ok 0x8D) && t.cycles == 4) = true ∧
    onFault (step (machineAt 0x8000 [0x8D, 0x02, 0x20])) (.unsupportedAddress 0x2002) = true := by decide
/-- L-im2: SEI with P = 0x86 leaves P = 0x86; L-im1: from 0x00 it leaves 0x04. -/
theorem test_sei :
    onNext (step { machineAt 0x8000 [0x78] with p := 0x86 })
      (fun t => t.p == 0x86 && t.pc == 0x8001 && t.cycles == 2) = true ∧
    onNext (step (machineAt 0x8000 [0x78])) (fun t => t.p == 0x04) = true := by decide
/-- L-im-c1: the dummy read of an SEI at 0xFFFF faults. -/
theorem test_sei_dummy_read :
    onFault (step (machineAt 0xFFFF [0x78])) (.unsupportedAddress 0x0000) = true := by decide
/-- L-im4: CLD with P = 0xFF leaves P = 0xF7. -/
theorem test_cld :
    onNext (step { machineAt 0x8000 [0xD8] with p := 0xFF }) (fun t => t.p == 0xF7 && t.cycles == 2) = true := by
  decide
/-- L-im8: TXS with X = 0x80 and P = 0x02. -/
theorem test_txs :
    onNext (step { machineAt 0x8000 [0x9A] with x := 0x80, p := 0x02, sp := 0xFD })
      (fun t => t.sp == 0x80 && t.x == 0x80 && t.p == 0x02 && t.cycles == 2) = true := by decide
/-- L-b1, L-b5, L-b9: BPL not taken; taken below the window; taken back across the page it stands before. -/
theorem test_bpl :
    onNext (step (negativeAt 0x8000 [0x10, 0x05])) (fun t => t.pc == 0x8002 && t.cycles == 2) = true ∧
    onNext (step (machineAt 0x8000 [0x10, 0xFD])) (fun t => t.pc == 0x7FFF && t.cycles == 4) = true ∧
    onNext (step (machineAt 0x80FE [0x10, 0xFE])) (fun t => t.pc == 0x80FE && t.cycles == 4) = true := by decide
/-- L-b4, L-b12, L-b13: a loop on itself; a target that wraps; a dummy read that faults. -/
theorem test_bpl_edges :
    onNext (step (machineAt 0x8000 [0x10, 0xFE])) (fun t => t.pc == 0x8000 && t.cycles == 3) = true ∧
    onNext (step (machineAt 0xFFFD [0x10, 0x01])) (fun t => t.pc == 0x0000 && t.cycles == 4) = true ∧
    onFault (step (machineAt 0xFFFE [0x10, 0x10])) (.unsupportedAddress 0x0000) = true := by decide
/-- L-il2: an illegal opcode. -/
theorem test_illegal : onFault (step (machineAt 0x8000 [0xEA])) (.illegalOpcode 0xEA 0x8000) = true := by decide

/-- L-b7's transactions (R154). -/
theorem test_bpl_transactions :
    transactions (.bpl 0x7F) (machineAt 0x80F0 [0x10, 0x7F]) =
      [.read 0x80F0, .read 0x80F1, .dummyRead 0x80F2, .dummyRead 0x8071] := by decide

/-! ### Loader, scheduler, assembler -/

/-- L-ld3 to L-ld7: mapper identifier and NES 2.0 bit. -/
theorem test_header_fields :
    headerMapperId (header 1 0 0xA0 0x30) = 0x3A ∧ headerMapperId (header 1 0 0x0F 0x0F) = 0x00 ∧
      headerMapperId (header 1 0 0x10 0x00) = 0x01 ∧ headerNes2 (header 1 0 0x0F 0x0F) = false ∧
      headerNes2 (header 1 0 0 0x08) = true ∧ headerNes2 (header 1 0 0 0x04) = false := by decide
/-- L-ld2, L-ld8, L-ld9: refused images change nothing. -/
theorem test_load_refused :
    loadROM (header 1 0 0 0) State.reset = (.imageTooShort, State.reset) ∧
      loadROM (0x58 :: (header 0 0 0 0).tail) State.reset = (.badMagic, State.reset) ∧
      loadROM ((header 0 0 0 0).take 10) State.reset = (.imageTooShort, State.reset) := by decide
/-- P6 image C: no PRG bank, the vector read faults and the machine is left faulted, phase even. -/
theorem test_load_vector_fault :
    (loadROM (header 0 0 0 0) State.reset).1 = .vectorFault (.prgOutOfRange 0xFFFC) ∧
      (loadROM (header 0 0 0x10 0) State.reset).1 = .vectorFault (.unsupportedMapper 0xFFFC) ∧
      (loadROM (header 0 0 0 0) State.reset).2.fault = some (.prgOutOfRange 0xFFFC) ∧
      (loadROM (header 0 0 0 0) { State.reset with phase := .odd }).2.phase = .even := by decide
/-- L-ld11, L-ld12: SP, PC and fault after a reset, with the vector bytes 0x34, 0x92. -/
theorem test_reset_vector :
    resetCpu
      { State.reset with
        cart := some { blankCart with prg := [(0x3FFC, 0x34), (0x3FFD, 0x92)] }
        phase := .odd
        a := 0x11
        fault := some (.unsupportedAddress 0) } =
      (.success,
        { State.reset with
          cart := some { blankCart with prg := [(0x3FFC, 0x34), (0x3FFD, 0x92)] }
          a := 0x11
          sp := 0xFD
          pc := 0x9234 }) := by decide
/-- The numeric codes of R110. -/
theorem test_codes :
    (Fault.illegalOpcode 0 0).code = 1 ∧ (Fault.unsupportedAddress 0).code = 2 ∧
      (Fault.unsupportedMapper 0).code = 3 ∧ (Fault.prgOutOfRange 0).code = 4 ∧
      LoadResult.badMagic.code = some 16 ∧ LoadResult.imageTooShort.code = some 17 := by decide
/-- A call whose first step faults. -/
theorem stepFrame_first_fault {s : State} {f : Fault} (hr : Running s) (h : step s.beginFrame = .fault f) :
    stepFrame s = (.fault f, (recordFault f s.beginFrame).endFrame) := by
  have hb : ∀ n, 0 < n → runFrame n n s.beginFrame = (.fault f, recordFault f s.beginFrame)
    | n + 1, hn => runFrame_fault hn h
  rw [stepFrame_of_running hr, hb _ (by cases s.phase <;> decide)]

/-- L-s1, L-s4: no cartridge; a call while faulted. -/
theorem test_frames :
    stepFrame State.reset = (.success, State.reset) ∧
      (stepFrame { machineAt 0x8000 [] with fault := some (.unsupportedAddress 3), phase := .odd }).1 =
        .fault (.unsupportedAddress 3) := by decide
/-- L-s3: a call that faults in its first step returns the fault and toggles the phase. -/
theorem test_frame_faults :
    (stepFrame (machineAt 0x8000 [0xEA])).1 = .fault (.illegalOpcode 0xEA 0x8000) ∧
      (stepFrame (machineAt 0x8000 [0xEA])).2.phase = .odd := by
  rw [stepFrame_first_fault (f := .illegalOpcode 0xEA 0x8000) (by decide) (onFault_eq (by decide))]
  decide
/-- P2's line `800D: 10 FB     BPL $800A`, in the layout of R84 (log 9). -/
theorem test_assemble :
    assemble 0x800D (.bpl 0x800A) = some (.bpl 0xFB) ∧
      listingLine 0x800D (.bpl 0xFB) = "800D: 10 FB  BPL $800A".toList ∧
      parseAsm [("wait".toList, 0x800A)] "BPL wait".toList = some (.bpl 0x800A) ∧
      parseAsm [] "LDA #5".toList = some (.ldaImm 5) ∧
      parseAsm [] "LDA #0x80".toList = some (.ldaImm 0x80) ∧
      parseAsm [] "LDX #$FF".toList = some (.ldxImm 0xFF) ∧
      parseAsm [] "STA $2000".toList = some (.sta 0x2000) ∧
      parseAsm [] "LDA #256".toList = none ∧ parseAsm [] "LDA $20".toList = none := by decide

/-! ### Witnesses: the hypotheses of each obligation, met together -/

theorem witness_EncodeOfDecode : decode [0xA9, 0x05, 0x78] = .ok (.ldaImm 0x05, [0x78]) := by decide

/-- One of each format, and an illegal byte a running machine fetches. -/
theorem witness_OpcodeAloneGivesLength :
    decode [0x78, 1] = .ok (.sei, [1]) ∧ decode [0xA2, 1] = .ok (.ldxImm 1, []) ∧
      decode [0x10, 1] = .ok (.bpl 1, []) ∧ decode [0x8D, 1, 0] = .ok (.staAbs 1, []) ∧
      Running (machineAt 0x8000 [0xEA]) ∧ busRead (machineAt 0x8000 [0xEA]) 0x8000 = .ok 0xEA ∧
      opcodeLength 0xEA = none ∧
      (0xEA : Byte) ∉ ([0x10, 0x78, 0x8D, 0x9A, 0xA2, 0xA9, 0xAD, 0xD8] : List Byte) := by decide

/-- At the two ends of the byte range. -/
theorem witness_IllegalOpcodeFaults :
    Running (machineAt 0x8000 [0x00]) ∧ busRead (machineAt 0x8000 [0x00]) 0x8000 = .ok 0x00 ∧
      (0x00 : Byte) ∉ ([0x10, 0x78, 0x8D, 0x9A, 0xA2, 0xA9, 0xAD, 0xD8] : List Byte) ∧
      Running (machineAt 0xFFFF [0xFF]) ∧ busRead (machineAt 0xFFFF [0xFF]) 0xFFFF = .ok 0xFF ∧
      (0xFF : Byte) ∉ ([0x10, 0x78, 0x8D, 0x9A, 0xA2, 0xA9, 0xAD, 0xD8] : List Byte) := by decide

theorem witness_StepRunsDecodedInstruction :
    Running (machineAt 0x8000 [0xAD, 0x02, 0x20]) ∧
      readBytes (machineAt 0x8000 [0xAD, 0x02, 0x20]) 0x8000 3 = .ok [0xAD, 0x02, 0x20] ∧
      decode [0xAD, 0x02, 0x20] = .ok (.ldaAbs 0x2002, []) :=
  ⟨by decide, readBytes_three (by decide) (by decide) (by decide), by decide⟩

/-- The opcode fetch, the second byte's fetch and the third byte's fetch fault, each at the window's edge. -/
theorem witness_FirstFaultingFetchEndsStep :
    (Running (machineAt 0x7FFF []) ∧
      busRead (machineAt 0x7FFF []) 0x7FFF = .error (.fault (.unsupportedAddress 0x7FFF))) ∧
    (Running (machineAt 0xFFFF [0xA9]) ∧ busRead (machineAt 0xFFFF [0xA9]) 0xFFFF = .ok 0xA9 ∧
      opcodeLength 0xA9 = some 2 ∧
      busRead (machineAt 0xFFFF [0xA9]) 0x0000 = .error (.fault (.unsupportedAddress 0x0000))) ∧
    (Running (machineAt 0xFFFE [0xAD, 0x02]) ∧ busRead (machineAt 0xFFFE [0xAD, 0x02]) 0xFFFE = .ok 0xAD ∧
      opcodeLength 0xAD = some 3 ∧ busRead (machineAt 0xFFFE [0xAD, 0x02]) 0xFFFF = .ok 0x02 ∧
      busRead (machineAt 0xFFFE [0xAD, 0x02]) 0x0000 = .error (.fault (.unsupportedAddress 0x0000))) := by
  decide

theorem witness_NoStepWithoutCartridgeOrAfterFault :
    State.reset.cart = none ∧
      { machineAt 0x8000 [] with fault := some (.unsupportedAddress 3) }.cart ≠ none := by decide

/-- The operand fetch of an LDA # and an LDX # at 0xFFFF faults. -/
theorem witness_LdaImmediateLoadsA_LdxImmediateLoadsX :
    (Running (machineAt 0xFFFF [0xA9]) ∧ busRead (machineAt 0xFFFF [0xA9]) 0xFFFF = .ok 0xA9) ∧
    (Running (machineAt 0xFFFF [0xA2]) ∧ busRead (machineAt 0xFFFF [0xA2]) 0xFFFF = .ok 0xA2) ∧
    busRead (machineAt 0xFFFF [0xA2]) (0xFFFF + 1) = .error (.fault (.unsupportedAddress 0)) ∧
    busRead (machineAt 0xFFFF [0xA9]) (0xFFFF + 1) = .error (.fault (.unsupportedAddress 0)) := by decide

theorem witness_LdaAbsoluteLoadsA :
    busRead (busMachine 1 0) 0x2002 = .ok 0x5A ∧ busRead (busMachine 1 0) 0x8000 = .ok 0x12 ∧
      busRead (busMachine 1 0) 0x7FFF = .error (.fault (.unsupportedAddress 0x7FFF)) := by decide

/-- Each clause: the discarded write at 0x8000, the faults below it, another mapper, the operand fetches. -/
theorem witness_StaAbsoluteWritesA :
    (HasNrom (busMachine 1 0) { blankCart with prg := [(0, 0x12), (0x4000, 0x34)] } ∧
      0x8000 ≤ (0x8000 : Word).toNat ∧ (0x7FFF : Word).toNat < 0x8000 ∧ (0x7FFF : Word) ≠ 0x2000 ∧
      (0x2002 : Word).toNat < 0x8000) ∧
    (HasCart (busMachine 1 1) { blankCart with mapperId := 1, prg := [(0, 0x12), (0x4000, 0x34)] } ∧
      (1 : Byte) ≠ 0 ∧ (0x8000 : Word) ≠ 0x2000) ∧
    (Running (machineAt 0xFFFF [0x8D]) ∧ busRead (machineAt 0xFFFF [0x8D]) 0xFFFF = .ok 0x8D ∧
      busRead (machineAt 0xFFFF [0x8D]) 0 = .error (.fault (.unsupportedAddress 0))) ∧
    (Running (machineAt 0xFFFE [0x8D, 3]) ∧ busRead (machineAt 0xFFFE [0x8D, 3]) 0xFFFE = .ok 0x8D ∧
      busRead (machineAt 0xFFFE [0x8D, 3]) 0xFFFF = .ok 3 ∧
      busRead (machineAt 0xFFFE [0x8D, 3]) 0 = .error (.fault (.unsupportedAddress 0))) := by decide

/-- For SEI, TXS and CLD: the byte after the opcode at 0xFFFE can be read, the one after 0xFFFF cannot. -/
theorem witness_SeiSetsInterruptDisable_TxsCopiesXToSp_CldClearsDecimal :
    busRead (machineAt 0xFFFE [0x78, 0x9A]) (0xFFFE + 1) = .ok 0x9A ∧
      busRead (machineAt 0xFFFF [0xD8]) (0xFFFF + 1) = .error (.fault (.unsupportedAddress 0)) := by decide

theorem witness_BplNotTakenWhenNegative : (negativeAt 0x8000 [0x10, 0x05]).flag .N = true := by decide

/-- The last offset from 0x80F2 that stays in the page. -/
theorem witness_BplTakenInPage :
    (machineAt 0x80F0 [0x10, 0x0D]).flag .N = false ∧
      busRead (machineAt 0x80F0 [0x10, 0x0D]) (0x80F0 + 2) = .ok 0 ∧
      hi8 (0x80F0 + 2 + sext16 0x0D) = hi8 (0x80F0 + 2) := by decide

/-- The first offset from 0x80F2 that crosses, and L-b7. -/
theorem witness_BplTakenAcrossPages :
    ((machineAt 0x80F0 [0x10, 0x0E]).flag .N = false ∧
      busRead (machineAt 0x80F0 [0x10, 0x0E]) (0x80F0 + 2) = .ok 0 ∧
      hi8 (0x80F0 + 2 + sext16 0x0E) ≠ hi8 (0x80F0 + 2) ∧
      busRead (machineAt 0x80F0 [0x10, 0x0E]) (joinWord (hi8 (0x80F0 + 2)) (lo8 (0x80F0 + 2 + sext16 0x0E)))
        = .ok 0) ∧
    ((machineAt 0x80F0 [0x10, 0x7F]).flag .N = false ∧
      busRead (machineAt 0x80F0 [0x10, 0x7F]) (0x80F0 + 2) = .ok 0 ∧
      hi8 (0x80F0 + 2 + sext16 0x7F) ≠ hi8 (0x80F0 + 2) ∧
      busRead (machineAt 0x80F0 [0x10, 0x7F]) (joinWord (hi8 (0x80F0 + 2)) (lo8 (0x80F0 + 2 + sext16 0x7F)))
        = .ok 0) := by decide

/-- The first dummy read faults (L-b13); the second faults where the next byte is the intercepted 0x2002: a
BPL at 0x2000, in a state no run reaches. -/
theorem witness_BplDummyReadFaults :
    ((machineAt 0xFFFE [0x10, 0x10]).flag .N = false ∧
      busRead (machineAt 0xFFFE [0x10, 0x10]) (0xFFFE + 2) = .error (.fault (.unsupportedAddress 0))) ∧
    ((machineAt 0x2000 []).flag .N = false ∧ busRead (machineAt 0x2000 []) (0x2000 + 2) = .ok 0 ∧
      hi8 (0x2000 + 2 + sext16 0x80) ≠ hi8 (0x2000 + 2) ∧
      busRead (machineAt 0x2000 []) (joinWord (hi8 (0x2000 + 2)) (lo8 (0x2000 + 2 + sext16 0x80))) =
        .error (.fault (.unsupportedAddress 0x2082))) := by decide

/-- Every instruction answers a next state somewhere: the hypothesis of `NegativeZeroRule`,
`PcAfterInstruction` and `CyclesOfEachInstruction`, for each constructor. -/
theorem witness_NegativeZeroRule_PcAfterInstruction_CyclesOfEachInstruction :
    ([.ldaImm 0x80, .ldaAbs 0x2002, .ldxImm 0, .bpl 5, .sei, .staAbs 0x2000, .txs, .cld] : List Instr).all
      (fun i => onNext (exec i (machineAt 0x8000 [])) (fun _ => true)) = true ∧
    onNext (exec (.bpl 0x80) (machineAt 0x8000 [])) (fun t => t.pc == 0x7F82) = true ∧
    onNext (exec (.bpl 0x80) (negativeAt 0x8000 [])) (fun t => t.pc == 0x8002) = true := by decide

/-- A change of each flag that can change: N and Z by LDA and LDX, I by SEI, D by CLD. -/
theorem witness_FlagWriters :
    onNext (exec (.ldaImm 0x80) (machineAt 0x8000 [])) (fun t => t.flag .N) = true ∧
      onNext (exec (.ldxImm 0) (machineAt 0x8000 [])) (fun t => t.flag .Z) = true ∧
      (machineAt 0x8000 []).flag .N = false ∧ (machineAt 0x8000 []).flag .Z = false ∧
      (machineAt 0x8000 []).flag .I = false ∧
      onNext (exec .sei (machineAt 0x8000 [])) (fun t => t.flag .I) = true ∧
      { machineAt 0x8000 [] with p := 0x08 }.flag .D = true ∧
      onNext (exec .cld { machineAt 0x8000 [] with p := 0x08 }) (fun t => !t.flag .D) = true := by decide

/-- A change of each register. -/
theorem witness_RegisterWriters :
    onNext (exec (.ldaImm 1) (machineAt 0x8000 [])) (fun t => t.a != (machineAt 0x8000 []).a) = true ∧
      onNext (exec (.ldxImm 1) (machineAt 0x8000 [])) (fun t => t.x != (machineAt 0x8000 []).x) = true ∧
      onNext (exec .txs { machineAt 0x8000 [] with x := 1 }) (fun t => t.sp != (machineAt 0x8000 []).sp)
        = true ∧
      onNext (exec (.staAbs 0x2000) { machineAt 0x8000 [] with a := 1 })
        (fun t => t.ppuController != (machineAt 0x8000 []).ppuController) = true := by decide

/-- A step that goes on, from a state that meets the invariant. -/
theorem witness_StepKeepsInvariant_StepLeavesTheRestAlone :
    (machineAt 0x8000 [0x78]).inv = true ∧ onNext (step (machineAt 0x8000 [0x78])) (fun t => t.inv) = true := by
  decide

/-- The clauses of the read map where they meet, with one bank and with two. -/
theorem witness_NromReadMap :
    HasNrom (busMachine 1 0) { blankCart with prg := [(0, 0x12), (0x4000, 0x34)] } ∧
      HasNrom (busMachine 2 0) { blankCart with prgBanks := 2, prg := [(0, 0x12), (0x4000, 0x34)] } ∧
      (1 : Byte) ≠ 0 ∧ (2 : Byte) ≠ 0 ∧
      busRead (busMachine 1 0) 0x2001 = .error (.fault (.unsupportedAddress 0x2001)) ∧
      busRead (busMachine 1 0) 0x2002 = .ok 0x5A ∧
      busRead (busMachine 1 0) 0x2003 = .error (.fault (.unsupportedAddress 0x2003)) ∧
      busRead (busMachine 1 0) 0x7FFF = .error (.fault (.unsupportedAddress 0x7FFF)) ∧
      busRead (busMachine 2 0) 0xBFFF = .ok 0 ∧ busRead (busMachine 2 0) 0xC000 = .ok 0x34 := by decide

theorem witness_NromWriteDiscarded_PrgOutOfRangeOnlyWhenEmpty_OneBankMirrors :
    HasNrom (busMachine 1 0) { blankCart with prg := [(0, 0x12), (0x4000, 0x34)] } ∧
      0x8000 ≤ (0x8000 : Word).toNat ∧ (0x7FFF : Word).toNat < 0x8000 ∧ (0x7FFF : Word) ≠ 0x2000 ∧
      (1 : Byte) = 1 ∧ 0x3FFF < 0x4000 ∧
      HasNrom (busMachine 0 0) { blankCart with prgBanks := 0, prg := [(0, 0x12), (0x4000, 0x34)] } ∧
      busRead (busMachine 0 0) 0xFFFF = .error (.fault (.prgOutOfRange 0xFFFF)) := by decide

theorem witness_UnknownMapperFaults :
    HasCart (busMachine 1 1) { blankCart with mapperId := 1, prg := [(0, 0x12), (0x4000, 0x34)] } ∧
      (1 : Byte) ≠ 0 ∧ (0x2000 : Word) ≠ 0x2002 ∧ (0x2002 : Word) ≠ 0x2000 := by decide

theorem witness_WritesAreNeverReadBack :
    busWrite (busMachine 1 0) 0x8000 0xFF = .ok (busMachine 1 0) ∧
      busWrite (busMachine 1 0) 0x2000 0xFF = .ok { busMachine 1 0 with ppuController := 0xFF } := by decide

theorem witness_LittleEndianPairs :
    busRead (busMachine 1 0) 0x8000 = .ok 0x12 ∧ busRead (busMachine 1 0) (0x8000 + 1) = .ok 0x00 := by decide

theorem witness_HostMovesKeepInvariant :
    State.reset.hostInv = true ∧ (machineAt 0x8000 [0xEA]).hostInv = true ∧
      { machineAt 0x8000 [0xEA] with fault := some (.illegalOpcode 0xEA 0x8000) }.hostInv = true := by decide

/-- A load that replaces the cartridge, and a write that reaches the NROM mapper. -/
theorem witness_OnlyLoadReplacesCartridge :
    (hostMove (.loadROM (header 0 0 0 0)) State.reset).2.cart ≠ State.reset.cart ∧
      mapperWrite (busMachine 1 0) 0x8000 0xFF = .ok (busMachine 1 0) := by decide

theorem witness_RomNeverChangesWithoutLoad :
    (∀ m ∈ [HostMove.setPpuStatus 0x80, HostMove.stepFrame], m.noLoad = true) ∧
      (0x8000 : Word) ≠ 0x2002 := by decide

/-- A step whose transactions all succeed, and one whose last one faults. -/
theorem witness_TransactionsDecideStep :
    (Running (machineAt 0x8000 [0x8D, 0x00, 0x20]) ∧
      readBytes (machineAt 0x8000 [0x8D, 0x00, 0x20]) 0x8000 (Instr.staAbs 0x2000).length =
        .ok [0x8D, 0x00, 0x20] ∧
      decode [0x8D, 0x00, 0x20] = .ok (.staAbs 0x2000, []) ∧
      (performAll (transactions (.staAbs 0x2000) (machineAt 0x8000 [0x8D, 0x00, 0x20]))
        (machineAt 0x8000 [0x8D, 0x00, 0x20])).isOk = true) ∧
    (Running (machineAt 0x8000 [0x8D, 0x00, 0x03]) ∧
      readBytes (machineAt 0x8000 [0x8D, 0x00, 0x03]) 0x8000 (Instr.staAbs 0x0300).length =
        .ok [0x8D, 0x00, 0x03] ∧
      decode [0x8D, 0x00, 0x03] = .ok (.staAbs 0x0300, []) ∧
      performAll (transactions (.staAbs 0x0300) (machineAt 0x8000 [0x8D, 0x00, 0x03]))
        (machineAt 0x8000 [0x8D, 0x00, 0x03]) = .error (.fault (.unsupportedAddress 0x0300))) :=
  ⟨⟨by decide, readBytes_three (by decide) (by decide) (by decide), by decide, by decide⟩,
    by decide, readBytes_three (by decide) (by decide) (by decide), by decide, by decide⟩

/-- Each fault kind, raised by a step of a machine with no recorded fault. -/
theorem witness_FaultsHaveTheirCause :
    onFault (step (machineAt 0x8000 [0xEA])) (.illegalOpcode 0xEA 0x8000) = true ∧
      onFault (step (machineAt 0x7FFF [])) (.unsupportedAddress 0x7FFF) = true ∧
      onFault (step { busMachine 1 1 with pc := 0x8000 }) (.unsupportedMapper 0x8000) = true ∧
      onFault (step { busMachine 0 0 with pc := 0x8000 }) (.prgOutOfRange 0x8000) = true ∧
      (machineAt 0x8000 [0xEA]).fault = none ∧ (busMachine 1 1).fault = none ∧ (busMachine 0 0).fault = none := by
  decide

/-- Two different machines that agree on what a program can see. -/
theorem witness_UnreadStateIsUnobservable_FramesHideUnreadState :
    (machineAt 0x8000 [0x78]).visible =
        { machineAt 0x8000 [0x78] with sp := 0xFD, p := 0x7F, ppuController := 9 }.visible ∧
      (machineAt 0x8000 [0x78]) ≠ { machineAt 0x8000 [0x78] with sp := 0xFD, p := 0x7F, ppuController := 9 } ∧
      (∀ m ∈ [HostMove.setPpuStatus 0x80, HostMove.stepFrame], m.noLoad = true) := by decide

theorem witness_FrameWithoutCartridgeIsNoop : State.reset.cart = none := by decide

theorem witness_RecordedFaultIsReturnedForever_FrameReturns :
    { machineAt 0x8000 [] with fault := some (.unsupportedAddress 3) }.cart ≠ none ∧
      { machineAt 0x8000 [] with fault := some (.unsupportedAddress 3) }.cycles = 0 := by decide

/-- A BPL at 0x8000 to itself (L-b4). -/
theorem self_branch {s : State} {v : Byte} (hp : s.pc = 0x8000) (hN : s.flag .N = false)
    (h : busRead s 0x8002 = .ok v) : exec (.bpl 0xFE) s = .next { s with cycles := s.cycles + 3 } := by
  have h2 : busRead (s.fetched 2) (s.fetched 2).pc = .ok v := by
    rw [busRead_fetched, State.fetched_pc, hp]
    exact h
  have hs : samePage (s.fetched 2).pc (branchTarget (s.fetched 2).pc 0xFE) = true := by
    rw [State.fetched_pc, hp]
    decide
  have ht : branchTarget (s.fetched 2).pc 0xFE = s.pc := by
    rw [State.fetched_pc, hp]
    decide
  unfold exec execBpl
  dsimp only
  rw [State.flag_fetched, hN, if_neg (by decide), withDummyRead_ok h2, if_pos hs, ht]
  rfl

/-- A machine that loops on itself, in the loop of a call made in the even phase, at a cycle count. -/
def loopMachine (c : Nat) : State :=
  { machineAt 0x8000 [0x10, 0xFE] with
    phase := .odd
    cycles := c }

theorem loop_step (c : Nat) : step (loopMachine c) = .next (loopMachine (c + 3)) := by
  have hb : ∀ addr, busRead (loopMachine c) addr = busRead (machineAt 0x8000 [0x10, 0xFE]) addr :=
    fun addr => busRead_congr rfl rfl addr
  have h0 := (hb 0x8000).trans (show _ = .ok 0x10 by decide)
  have h1 := (hb (0x8000 + 1)).trans (show _ = .ok 0xFE by decide)
  have h2 := (hb 0x8002).trans (show _ = .ok 0x00 by decide)
  have hf : fetchInstr (loopMachine c) = .ok (.bpl 0xFE) := by
    refine fetchInstr_ok.mpr ?_
    show readBytes (loopMachine c) 0x8000 2 = _
    simp only [readBytes, h0, h1]
    rfl
  have hN : (loopMachine c).flag .N = false :=
    (State.flag_of_p (s := machineAt 0x8000 [0x10, 0xFE]) rfl .N).trans (by decide)
  have hs : step (loopMachine c) = exec (.bpl 0xFE) (loopMachine c) :=
    step_of_fetch ⟨by simp [loopMachine, machineAt], rfl⟩ hf
  exact hs.trans (self_branch rfl hN h2)

theorem loop_run : ∀ n c : Nat, Sys2Proof.core.run n (loopMachine c) = .next (loopMachine (c + 3 * n))
  | 0, _ => rfl
  | n + 1, c => by
    rw [run_succ_next n (loop_step c), loop_run n (c + 3), show c + 3 + 3 * n = c + 3 * (n + 1) by omega]

/-- The state the call's loop starts from. -/
theorem loop_start :
    { machineAt 0x8000 [0x10, 0xFE] with
      phase := (machineAt 0x8000 [0x10, 0xFE]).phase.toggle, cycles := 0 } = loopMachine 0 := rfl

/-- The loop of a call in the even phase reaches its budget with its 9927th step, and not before. -/
theorem witness_FrameSuccessIsTheLoop_FrameOverrunsByAtMostThree :
    ∃ s u : State, Running s ∧
      Sys2Proof.core.run 9927 { s with phase := s.phase.toggle, cycles := 0 } = .next u ∧
      (∀ k < 9927, ∀ v : State,
        Sys2Proof.core.run k { s with phase := s.phase.toggle, cycles := 0 } = .next v →
          v.cycles < frameBudget s.phase) ∧
      frameBudget s.phase ≤ u.cycles := by
  refine ⟨machineAt 0x8000 [0x10, 0xFE], loopMachine (0 + 3 * 9927), by decide, ?_, ?_, by decide⟩
  · rw [loop_start]
    exact loop_run 9927 0
  · intro k hk v hv
    rw [loop_start] at hv
    have := (loop_run k 0).symm.trans hv
    cases this
    show 0 + 3 * k < 29780
    omega

/-- A call whose first step faults. -/
theorem witness_FaultEndsTheFrame_FaultIsRecordedAndDevicesKept :
    Running (machineAt 0x8000 [0xEA]) ∧
      Sys2Proof.core.run 0 { machineAt 0x8000 [0xEA] with phase := Phase.even.toggle, cycles := 0 } =
        .next { machineAt 0x8000 [0xEA] with phase := .odd } ∧
      (∀ k ≤ 0, ∀ v : State,
        Sys2Proof.core.run k { machineAt 0x8000 [0xEA] with phase := Phase.even.toggle, cycles := 0 } = .next v →
          v.cycles < frameBudget .even) ∧
      step { machineAt 0x8000 [0xEA] with phase := .odd } = .fault (.illegalOpcode 0xEA 0x8000) := by
  refine ⟨by decide, rfl, ?_, onFault_eq (by decide)⟩
  intro k hk v hv
  obtain rfl : k = 0 := by omega
  cases hv
  decide

theorem zeroImage_accepted : acceptedImage zeroImage := by
  refine ⟨?_, rfl, ?_⟩ <;> simp only [zeroImage, List.length_append, List.length_replicate] <;> decide

/-- The images whose load succeeds, or leaves a faulted machine. -/
theorem witness_LoadInstallsImage_LoadResets_VectorFaultLeavesMachineFaulted :
    (acceptedImage zeroImage ∧ (zeroImage.getD 6 0 >>> 4) ||| (zeroImage.getD 7 0 &&& 0xF0) = 0 ∧
      zeroImage.getD 4 0 ≠ 0 ∧ zeroImage.getD 5 0 ≠ 0) ∧
    (acceptedImage (header 0 0 0 0) ∧ (header 0 0 0 0).getD 4 0 = 0) ∧
    (acceptedImage (header 0 0 0x10 0) ∧
      ((header 0 0 0x10 0).getD 6 0 >>> 4) ||| ((header 0 0 0x10 0).getD 7 0 &&& 0xF0) ≠ 0) := by
  refine ⟨⟨zeroImage_accepted, rfl, ?_, ?_⟩, ⟨⟨by decide, rfl, by decide⟩, rfl⟩, ⟨by decide, rfl, by decide⟩, by decide⟩
  · exact fun h => absurd (show (1 : Byte) = 0 from h) (by decide)
  · exact fun h => absurd (show (1 : Byte) = 0 from h) (by decide)

theorem witness_FailedLoadChangesNothing :
    ((header 0 0 0 0).take 10).length < 16 ∧
      (16 ≤ (0x58 :: (header 0 0 0 0).tail).length ∧
        (0x58 :: (header 0 0 0 0).tail).take 4 ≠ [0x4E, 0x45, 0x53, 0x1A]) ∧
      (16 ≤ (header 1 0 0 0).length ∧ (header 1 0 0 0).take 4 = [0x4E, 0x45, 0x53, 0x1A] ∧
        (header 1 0 0 0).length <
          16 + ((header 1 0 0 0).getD 4 0).toNat * 16384 + ((header 1 0 0 0).getD 5 0).toNat * 8192) := by decide

/-- An address of the window's upper half can be read in the zero image's cartridge. -/
theorem zeroImage_reads {s : State} (hs : s.cart = some (cartOf zeroImage)) {addr : Word} (h1 : addr ≠ 0x2002)
    (h2 : 0xC000 ≤ addr.toNat) : busRead s addr = .ok ((cartOf zeroImage).prg.read (addr.toNat - 0xC000)) := by
  have hlt := addr.isLt
  have hsize : (cartOf zeroImage).prgSize = 16384 := rfl
  have h3 : ¬(cartOf zeroImage).prgSize ≤ addr.toNat - 0xC000 := by omega
  have ho : nromOffset (cartOf zeroImage).prgBanks addr = some (addr.toNat - 0xC000) := by
    unfold nromOffset
    rw [if_pos h2, if_neg (show (cartOf zeroImage).prgBanks ≠ 2 from fun h => absurd (show (1 : Byte) = 2 from h) (by decide))]
  have hm : (cartOf zeroImage).mapperId = 0 := rfl
  have ha : addr ≠ ppuStatusAddr := h1
  simp only [busRead, ha, if_false, mapperRead, hs, hm, if_true, nromRead, ho, h3]

/-- The zero image loads: its vector bytes can be read. -/
theorem witness_BudgetsAlternate : (loadROM zeroImage State.reset).1 = .success := by
  rw [loadROM_accepted zeroImage_accepted,
    resetCpu_ok (memRead16_ok (zeroImage_reads rfl (by decide) (by decide))
      (zeroImage_reads rfl (by decide) (by decide)))]

/-- The two ends of a branch's reach, and P2's. -/
theorem witness_AssembledBranchReachesTarget :
    assemble 0x8000 (.bpl 0x7F82) = some (.bpl 0x80) ∧ assemble 0x8000 (.bpl 0x8081) = some (.bpl 0x7F) ∧
      assemble 0x800D (.bpl 0x800A) = some (.bpl 0xFB) := by decide

end Sys2Proof.Tests
end

section
/-! PROOFS. Family 00_scope.md: the branch offset as a two's complement integer (R10, R73, D3). -/

namespace Sys2Proof.Machine

/-- The zero extension of a byte is its unsigned value as a word (R10). -/
theorem zext16_eq_ofInt (b : Byte) : zext16 b = BitVec.ofInt 16 b.toNat := by
  rw [zext16, BitVec.ofInt_natCast, BitVec.ofNat_toNat]

/-- R10's two cases are those of two's complement: below 0x80 the byte is its own value, and from 0x80 on it
is its value less 256, which modulo 65536 is the sum with 0xFF00. -/
theorem sext16_eq_ofInt_toInt (b : Byte) : sext16 b = BitVec.ofInt 16 b.toInt := by
  by_cases hb : b.toNat < 0x80
  · have hval : b.toInt = b.toNat := BitVec.toInt_eq_toNat_of_lt (by omega)
    rw [sext16, if_pos hb, zext16_eq_ofInt, hval]
  · have hval : b.toInt = b.toNat + (-256) := by
      rw [BitVec.toInt_eq_toNat_cond, if_neg (by omega)]
      rfl
    have hborrow : BitVec.ofInt 16 (-256) = 0xFF00 := by decide
    rw [sext16, if_neg hb, zext16_eq_ofInt, hval, BitVec.ofInt_add, hborrow]

/-- Settles O19: the sign extension of R10 is the offset's two's complement value. -/
theorem branchOffsetIsSigned : Obligations.BranchOffsetIsSigned := by
  intro pc2 rel8
  rw [branchTarget, sext16_eq_ofInt_toInt]

end Sys2Proof.Machine
end

section
/-! PROOFS. Family 10_state.md: which state each instruction writes (R21 to R35), what a step leaves alone and
the invariant it keeps (R34 to R40), who replaces the cartridge (R37), and what no instruction reads (R24, R33,
R35, R67). -/

namespace Sys2Proof.Machine

/-! ### Every way an instruction completes -/

/-- The state each instruction leaves where it completes: three ways for a BPL (R90), two for an STA (R47,
R52), one for every other. -/
inductive Completes (s : State) : Instr → State → Prop
  | bplNotTaken {rel8 : Byte} : s.flag .N = true → Completes s (.bpl rel8) (s.fetched 2)
  | bplInPage {rel8 : Byte} : s.flag .N = false →
      samePage (s.pc + 2) (branchTarget (s.pc + 2) rel8) = true →
      Completes s (.bpl rel8) ((s.fetched 2).charge.setPc (branchTarget (s.pc + 2) rel8))
  | bplAcrossPages {rel8 : Byte} : s.flag .N = false →
      samePage (s.pc + 2) (branchTarget (s.pc + 2) rel8) = false →
      Completes s (.bpl rel8) ((s.fetched 2).charge.charge.setPc (branchTarget (s.pc + 2) rel8))
  | sei {v : Byte} : busRead s (s.pc + 1) = .ok v →
      Completes s .sei ((s.fetched 1).charge.setFlag .I true)
  | staController : Completes s (.staAbs 0x2000) { s.fetched 3 with ppuController := s.a }.charge
  | staDiscarded {addr : Word} {c : Cart} : addr ≠ 0x2000 → 0x8000 ≤ addr.toNat → HasNrom s c →
      Completes s (.staAbs addr) (s.fetched 3).charge
  | txs {v : Byte} : busRead s (s.pc + 1) = .ok v →
      Completes s .txs ((s.fetched 1).charge.writeReg .SP s.x)
  | ldxImm {imm8 : Byte} : Completes s (.ldxImm imm8) ((s.fetched 2).loadReg .X imm8)
  | ldaImm {imm8 : Byte} : Completes s (.ldaImm imm8) ((s.fetched 2).loadReg .A imm8)
  | ldaAbs {addr : Word} {v : Byte} : busRead s addr = .ok v →
      Completes s (.ldaAbs addr) ((s.fetched 3).charge.loadReg .A v)
  | cld {v : Byte} : busRead s (s.pc + 1) = .ok v →
      Completes s .cld ((s.fetched 1).charge.setFlag .D false)

/-- An instruction that completes does so in one of these ways. -/
theorem completes_of_exec_next {i : Instr} {s t : State} (h : exec i s = .next t) : Completes s i t := by
  cases i with
  | bpl rel8 =>
    rcases exec_bpl_next h with ⟨hN, rfl⟩ | ⟨hN, hp, rfl⟩ | ⟨hN, hp, rfl⟩
    · exact .bplNotTaken hN
    · exact .bplInPage hN hp
    · exact .bplAcrossPages hN hp
  | sei =>
    obtain ⟨⟨v, hv⟩, rfl⟩ := exec_sei_next.mp h
    exact .sei hv
  | staAbs addr =>
    obtain ⟨u, hw, rfl⟩ := exec_staAbs_next.mp h
    rcases busWrite_ok hw with ⟨rfl, rfl⟩ | ⟨hne, hwin, rfl, c, hc⟩
    · exact .staController
    · exact .staDiscarded hne hwin hc
  | txs =>
    obtain ⟨⟨v, hv⟩, rfl⟩ := exec_txs_next.mp h
    exact .txs hv
  | ldxImm imm8 =>
    obtain rfl := exec_ldxImm_next.mp h
    exact .ldxImm
  | ldaImm imm8 =>
    obtain rfl := exec_ldaImm_next.mp h
    exact .ldaImm
  | ldaAbs addr =>
    obtain ⟨v, hv, rfl⟩ := exec_ldaAbs_next.mp h
    exact .ldaAbs hv
  | cld =>
    obtain ⟨⟨v, hv⟩, rfl⟩ := exec_cld_next.mp h
    exact .cld hv

/-! ### Which instruction writes which flag and which register -/

/-- Setting one flag changes at most that flag, and then to the value set. -/
theorem State.flag_setFlag_ne {s : State} {f g : Flag} {b : Bool} (h : (s.setFlag f b).flag g ≠ s.flag g) :
    g = f ∧ (s.setFlag f b).flag g = b := by
  rw [State.flag_setFlag] at h ⊢
  split at h
  · exact ⟨‹_›, if_pos ‹_›⟩
  · exact absurd rfl h

/-- The N/Z rule changes at most N and Z. -/
theorem State.flag_updateNZ_ne {s : State} {r : Byte} {g : Flag} (h : (s.updateNZ r).flag g ≠ s.flag g) :
    g = .N ∨ g = .Z := by
  rw [State.flag_updateNZ] at h
  split at h
  · exact .inl ‹_›
  · split at h
    · exact .inr ‹_›
    · exact absurd rfl h

/-- Settles O22: SEI sets I, CLD clears D, the N/Z rule writes N and Z, and the others leave P as it was. -/
theorem flagWriters : Obligations.FlagWriters := by
  intro i s t f h hf
  cases completes_of_exec_next h with
  | bplNotTaken | bplInPage | bplAcrossPages | staController | staDiscarded | txs => exact absurd rfl hf
  | sei =>
    obtain ⟨rfl, hset⟩ := State.flag_setFlag_ne (s := (s.fetched 1).charge) hf
    exact ⟨rfl, hset⟩
  | cld =>
    obtain ⟨rfl, hclear⟩ := State.flag_setFlag_ne (s := (s.fetched 1).charge) hf
    exact ⟨rfl, hclear⟩
  | @ldxImm imm8 =>
    rcases State.flag_updateNZ_ne (s := s.fetched 2) hf with rfl | rfl <;> exact .inr (.inr ⟨imm8, rfl⟩)
  | @ldaImm imm8 =>
    rcases State.flag_updateNZ_ne (s := s.fetched 2) hf with rfl | rfl <;> exact .inl ⟨imm8, rfl⟩
  | @ldaAbs addr v =>
    rcases State.flag_updateNZ_ne (s := (s.fetched 3).charge) hf with rfl | rfl <;>
      exact .inr (.inl ⟨addr, rfl⟩)

/-- Settles O23: each register but the one its instruction writes stays, in every way of completing. -/
theorem registerWriters : Obligations.RegisterWriters := by
  intro i s t h
  cases completes_of_exec_next h <;> simp

/-! ### What a step leaves alone, and the invariant -/

/-- The bytes the bus reads come from the cartridge and `ppuStatus`, so a machine that keeps the fields keeps
the bytes. -/
theorem sameOutside_of_fields {s t : State} (hcart : t.cart = s.cart) (hphase : t.phase = s.phase)
    (hfault : t.fault = s.fault) (hstatus : t.ppuStatus = s.ppuStatus) (hfree : t.freeCount = s.freeCount) :
    SameOutside s t :=
  ⟨hcart, hphase, hfault, hstatus, hfree, busRead_congr hcart hstatus⟩

theorem exec_sameOutside {i : Instr} {s t : State} (h : exec i s = .next t) : SameOutside s t := by
  cases completes_of_exec_next h <;> exact sameOutside_of_fields rfl rfl rfl rfl rfl

theorem step_sameOutside {s t : State} (h : step s = .next t) : SameOutside s t := by
  rcases step_next h with ⟨_, rfl⟩ | ⟨_, i, _, hi⟩
  · exact sameOutside_of_fields rfl rfl rfl rfl rfl
  · exact exec_sameOutside hi

/-- Settles O25: an idle step changes nothing, and any other is an instruction that completes. -/
theorem stepLeavesTheRestAlone : Obligations.StepLeavesTheRestAlone :=
  fun _ _ => step_sameOutside

/-- The invariant speaks of the cartridge and the recorded fault alone. -/
theorem State.inv_congr {s t : State} (hcart : t.cart = s.cart) (hfault : t.fault = s.fault) :
    t.inv = s.inv := by
  unfold State.inv
  rw [hcart, hfault]

/-- Settles O34: a step that goes on leaves both fields of the invariant as they were. -/
theorem stepKeepsInvariant : Obligations.StepKeepsInvariant := by
  intro s t hinv h
  obtain ⟨hcart, _, hfault, _⟩ := step_sameOutside h
  rw [State.inv_congr hcart hfault, hinv]

/-! ### Who replaces the cartridge -/

theorem runFrame_refused {fuel budget : Nat} {s : State} {r : Refusal} (hb : s.cycles < budget)
    (h : step s = .refused r) : runFrame (fuel + 1) budget s = (.refused r, s) := by
  rw [runFrame, if_pos hb, h]

theorem runFrame_cart (fuel budget : Nat) (s : State) : (runFrame fuel budget s).2.cart = s.cart := by
  induction fuel generalizing s with
  | zero => rfl
  | succ n ih =>
    by_cases hb : s.cycles < budget
    · cases hs : step s with
      | next t =>
        obtain ⟨hcart, _⟩ := step_sameOutside hs
        rw [runFrame_next hb hs, ih, hcart]
      | fault f => rw [runFrame_fault hb hs, recordFault_cart]
      | refused r => rw [runFrame_refused hb hs]
    · rw [runFrame_done (by omega)]

/-- A call without a cartridge does nothing (R155, D16). -/
theorem stepFrame_of_no_cart {s : State} (h : s.cart = none) : stepFrame s = (.success, s) := by
  unfold stepFrame
  rw [h]

theorem stepFrame_cart (s : State) : (stepFrame s).2.cart = s.cart := by
  by_cases hc : s.cart = none
  · rw [stepFrame_of_no_cart hc]
  · cases hf : s.fault with
    | some f => rw [stepFrame_of_fault hc hf, State.beginFrame_cart]
    | none => rw [stepFrame_of_running ⟨hc, hf⟩, State.endFrame_cart, runFrame_cart, State.beginFrame_cart]

/-- A write that reaches the NROM mapper and succeeds is discarded (R52). -/
theorem mapperWrite_ok {s t : State} {addr : Word} {v : Byte} (h : mapperWrite s addr v = .ok t) : t = s := by
  unfold mapperWrite nromWrite at h
  split at h
  · cases h
  · split_ifs at h
    cases h
    rfl

/-- Settles O37: of the three host moves only a load can leave another cartridge, and a write that reaches
the mapper is discarded. -/
theorem onlyLoadReplacesCartridge : Obligations.OnlyLoadReplacesCartridge := by
  refine ⟨?_, fun s t addr v => mapperWrite_ok⟩
  intro m s hne
  cases m with
  | loadROM image => exact ⟨image, rfl⟩
  | stepFrame => exact absurd (stepFrame_cart s) hne
  | setPpuStatus v => exact absurd (setPpuStatus_cart v s) hne

/-! ### The visible part of a state

Everything below says of one operation that it answers the same for a state and for that state's visible part,
up to what no instruction reads. Two states with one visible part then answer alike. -/

@[simp] theorem State.visible_cart (s : State) : s.visible.cart = s.cart.map Cart.visible := rfl

theorem State.visible_cart_eq_none {s : State} : s.visible.cart = none ↔ s.cart = none :=
  Option.map_eq_none_iff

@[simp] theorem State.flag_visible_N (s : State) : s.visible.flag .N = s.flag .N :=
  getLsbD_withBit 0 (s.flag .N) (n := 7) (k := 7) (by omega) (by omega)

theorem map_visible_map_visible (o : Option Cart) :
    (o.map Cart.visible).map Cart.visible = o.map Cart.visible := by
  cases o <;> rfl

/-- States have one visible part where they agree on N, on what the bus reaches of the cartridge, and on the
fields that are visible whole. -/
theorem State.visible_eq {s t : State} (hN : s.flag .N = t.flag .N)
    (hcart : s.cart.map Cart.visible = t.cart.map Cart.visible)
    (hrest : { s with sp := 0, p := 0, ppuController := 0, cart := none } =
      { t with sp := 0, p := 0, ppuController := 0, cart := none }) : s.visible = t.visible := by
  unfold State.visible
  rw [hN, hcart]
  exact congrArg
    (fun u : State => { u with p := withBit 0 7 (t.flag .N), cart := t.cart.map Cart.visible }) hrest

@[simp] theorem State.visible_visible (s : State) : s.visible.visible = s.visible :=
  State.visible_eq s.flag_visible_N (map_visible_map_visible s.cart) rfl

theorem State.visible_setFlag (s : State) (f : Flag) (b : Bool) :
    (s.visible.setFlag f b).visible = (s.setFlag f b).visible :=
  State.visible_eq (by rw [State.flag_setFlag, State.flag_setFlag, State.flag_visible_N])
    (map_visible_map_visible s.cart) rfl

theorem State.flag_loadReg_N (s : State) (r : Reg) (v : Byte) : (s.loadReg r v).flag .N = v.getLsbD 7 := by
  rw [State.loadReg, State.flag_updateNZ, if_pos rfl]

/-- A load recomputes N, so what it shows needs no bit of the old P. -/
theorem State.visible_loadReg (s : State) (r : Reg) (v : Byte) :
    (s.visible.loadReg r v).visible = (s.loadReg r v).visible :=
  State.visible_eq (by rw [State.flag_loadReg_N, State.flag_loadReg_N])
    (by rw [State.loadReg_cart, State.loadReg_cart, State.visible_cart, map_visible_map_visible])
    (by cases r <;> rfl)

/-- A recorded fault shows the same from the visible part: the free values are drawn by the counter alone
(log 3). -/
theorem visible_recordFault (f : Fault) (s : State) :
    (recordFault f s.visible).visible = (recordFault f s).visible :=
  State.visible_eq rfl (map_visible_map_visible s.cart) rfl

/-! ### The bus and the fetch see the visible part alone -/

/-- The bus reads neither CHR nor the NES2 bit. -/
@[simp] theorem busRead_visible (s : State) (addr : Word) : busRead s.visible addr = busRead s addr := by
  unfold busRead mapperRead
  rw [State.visible_cart]
  cases s.cart <;> rfl

theorem nromWrite_visible (s : State) (addr : Word) (v : Byte) :
    nromWrite s.visible addr v = (nromWrite s addr v).map State.visible := by
  unfold nromWrite
  split <;> rfl

theorem mapperWrite_visible (s : State) (addr : Word) (v : Byte) :
    mapperWrite s.visible addr v = (mapperWrite s addr v).map State.visible := by
  unfold mapperWrite
  rw [State.visible_cart, nromWrite_visible]
  cases s.cart with
  | none => rfl
  | some c =>
    exact (apply_ite (Except.map State.visible) (c.mapperId = 0) (nromWrite s addr v)
      (.error (.fault (.unsupportedMapper addr)))).symm

/-- A write answers by the visible part alone, and leaves the same visible part: the byte it stores at 0x2000
is not in it. -/
theorem busWrite_visible (s : State) (addr : Word) (v : Byte) :
    (busWrite s.visible addr v).map State.visible = (busWrite s addr v).map State.visible := by
  unfold busWrite
  split
  · exact congrArg Except.ok s.visible_visible
  · rw [mapperWrite_visible]
    cases mapperWrite s addr v with
    | error e => rfl
    | ok t => exact congrArg Except.ok t.visible_visible

/-- The fetch depends on PC and the bytes of the bus. -/
theorem fetchInstr_congr {s t : State} (hpc : t.pc = s.pc) (hb : SameBytes s t) :
    fetchInstr t = fetchInstr s := by
  cases h : busRead s s.pc with
  | error e => rw [fetchInstr_of_error h, fetchInstr_of_error (by rw [hpc, hb, h])]
  | ok b =>
    rw [fetchInstr_of_opcode h, fetchInstr_of_opcode (by rw [hpc, hb, h])]
    simp only [fetchOperands_eq, busRead_fetched, State.fetched_pc, hpc, hb _]

@[simp] theorem fetchInstr_visible (s : State) : fetchInstr s.visible = fetchInstr s :=
  fetchInstr_congr rfl (busRead_visible s)

/-! ### A step answers the same from the visible part -/

@[simp] theorem visibleOutcome_toOutcome (e : Stop) : visibleOutcome e.toOutcome = e.toOutcome := by
  cases e <;> rfl

theorem visibleOutcome_eq_next {o : Out} {v : State} :
    visibleOutcome o = .next v ↔ ∃ t, o = .next t ∧ t.visible = v := by
  cases o <;> simp [visibleOutcome]

theorem visibleOutcome_eq_fault {o : Out} {f : Fault} : visibleOutcome o = .fault f ↔ o = .fault f := by
  cases o <;> simp [visibleOutcome]

theorem visibleOutcome_eq_refused {o : Out} {r : Refusal} : visibleOutcome o = .refused r ↔ o = .refused r := by
  cases o <;> simp [visibleOutcome]

/-- The byte read is the same, so what a read shows turns on what follows it. -/
theorem visibleOutcome_withRead {s : State} {addr : Word} {k : Byte → State → Out}
    (hk : ∀ v, visibleOutcome (k v s.visible.charge) = visibleOutcome (k v s.charge)) :
    visibleOutcome (withRead s.visible addr k) = visibleOutcome (withRead s addr k) := by
  unfold withRead
  rw [busRead_visible]
  cases busRead s addr with
  | error e => rfl
  | ok v => exact hk v

theorem visibleOutcome_withDummyRead {s : State} {addr : Word} {k : State → Out}
    (hk : visibleOutcome (k s.visible.charge) = visibleOutcome (k s.charge)) :
    visibleOutcome (withDummyRead s.visible addr k) = visibleOutcome (withDummyRead s addr k) :=
  visibleOutcome_withRead fun _ => hk

/-- What an instruction that ends with a write shows is the visible part of what the write leaves. -/
theorem visibleOutcome_withWrite_next (s : State) (addr : Word) (v : Byte) :
    visibleOutcome (withWrite s addr v .next) =
      match (busWrite s addr v).map State.visible with
      | .error e => e.toOutcome
      | .ok t => .next t.charge := by
  unfold withWrite
  cases busWrite s addr v with
  | error e => exact visibleOutcome_toOutcome e
  | ok t => rfl

theorem visibleOutcome_withWrite (s : State) (addr : Word) (v : Byte) :
    visibleOutcome (withWrite s.visible addr v .next) = visibleOutcome (withWrite s addr v .next) := by
  rw [visibleOutcome_withWrite_next, visibleOutcome_withWrite_next, busWrite_visible]

theorem visibleOutcome_next_visible (s : State) :
    visibleOutcome (.next s.visible) = visibleOutcome (.next s) :=
  congrArg Host.Outcome.next s.visible_visible

/-- BPL decides by N and PC alone where it goes. -/
theorem visibleOutcome_execBpl (rel8 : Byte) (s : State) :
    visibleOutcome (execBpl rel8 s.visible) = visibleOutcome (execBpl rel8 s) := by
  have hN : (s.visible.fetched 2).flag .N = (s.fetched 2).flag .N := s.flag_visible_N
  have hpc : (s.visible.fetched 2).pc = (s.fetched 2).pc := rfl
  unfold execBpl
  dsimp only
  rw [hN, hpc]
  split
  · exact visibleOutcome_next_visible (s.fetched 2)
  · refine visibleOutcome_withDummyRead (s := s.fetched 2) ?_
    split
    · exact visibleOutcome_next_visible ((s.fetched 2).charge.setPc _)
    · exact visibleOutcome_withDummyRead (s := (s.fetched 2).charge)
        (visibleOutcome_next_visible ((s.fetched 2).charge.charge.setPc _))

/-- An implied instruction whose register change shows the same from the visible part does so too. -/
theorem visibleOutcome_impliedThen (change : State → State) (s : State)
    (hc : ∀ u : State, (change u.visible).visible = (change u).visible) :
    visibleOutcome (impliedThen change s.visible) = visibleOutcome (impliedThen change s) :=
  visibleOutcome_withDummyRead (s := s.fetched 1) (congrArg Host.Outcome.next (hc (s.fetched 1).charge))

theorem visibleOutcome_exec (i : Instr) (s : State) :
    visibleOutcome (exec i s.visible) = visibleOutcome (exec i s) := by
  cases i with
  | bpl rel8 => exact visibleOutcome_execBpl rel8 s
  | sei => exact visibleOutcome_impliedThen (·.setFlag .I true) s fun u => u.visible_setFlag .I true
  | cld => exact visibleOutcome_impliedThen (·.setFlag .D false) s fun u => u.visible_setFlag .D false
  | txs => exact visibleOutcome_impliedThen (fun u => u.writeReg .SP u.x) s fun u => u.visible_visible
  | staAbs addr => exact visibleOutcome_withWrite (s.fetched 3) addr s.a
  | ldxImm imm8 => exact congrArg Host.Outcome.next ((s.fetched 2).visible_loadReg .X imm8)
  | ldaImm imm8 => exact congrArg Host.Outcome.next ((s.fetched 2).visible_loadReg .A imm8)
  | ldaAbs addr =>
    exact visibleOutcome_withRead (s := s.fetched 3) (k := fun v u => .next (u.loadReg .A v)) fun v =>
      congrArg Host.Outcome.next ((s.fetched 3).charge.visible_loadReg .A v)

theorem visibleOutcome_step (s : State) : visibleOutcome (step s.visible) = visibleOutcome (step s) := by
  by_cases hc : s.cart = none
  · rw [step_of_no_cart hc, step_of_no_cart (State.visible_cart_eq_none.mpr hc)]
    exact visibleOutcome_next_visible s
  · have hc' : s.visible.cart ≠ none := mt State.visible_cart_eq_none.mp hc
    cases hf : s.fault with
    | some f => rw [step_of_fault hc hf, step_of_fault hc' hf]
    | none =>
      rw [step_of_running ⟨hc, hf⟩, step_of_running ⟨hc', hf⟩, fetchInstr_visible]
      cases fetchInstr s with
      | error e => rfl
      | ok i => exact visibleOutcome_exec i s

/-- Settles O43: a step shows what the step of the visible part shows, and the two machines have one visible
part. -/
theorem unreadStateIsUnobservable : Obligations.UnreadStateIsUnobservable := by
  intro s t h
  rw [← visibleOutcome_step s, h, visibleOutcome_step]

/-! ### Frames and host moves show the same from the visible part -/

/-- What a call shows: its reply, and the visible part of the state it leaves. -/
def shown {α : Type} (r : α × State) : α × State :=
  (r.1, r.2.visible)

theorem shown_visible {α : Type} (reply : α) (s : State) : shown (reply, s.visible) = shown (reply, s) :=
  congrArg (Prod.mk reply) s.visible_visible

theorem shown_runFrame (fuel budget : Nat) (s : State) :
    shown (runFrame fuel budget s.visible) = shown (runFrame fuel budget s) := by
  induction fuel generalizing s with
  | zero => exact shown_visible _ s
  | succ n ih =>
    by_cases hb : s.cycles < budget
    · have hb' : s.visible.cycles < budget := hb
      have hstep := visibleOutcome_step s
      cases hs : step s with
      | next t =>
        rw [hs] at hstep
        obtain ⟨u, hu, hut⟩ := visibleOutcome_eq_next.mp hstep
        rw [runFrame_next hb hs, runFrame_next hb' hu, ← ih u, hut, ih t]
      | fault f =>
        rw [hs] at hstep
        rw [runFrame_fault hb hs, runFrame_fault hb' (visibleOutcome_eq_fault.mp hstep)]
        exact congrArg (Prod.mk (FrameResult.fault f)) (visible_recordFault f s)
      | refused r =>
        rw [hs] at hstep
        rw [runFrame_refused hb hs, runFrame_refused hb' (visibleOutcome_eq_refused.mp hstep)]
        exact shown_visible _ s
    · rw [runFrame_done (s := s.visible) (Nat.le_of_not_lt hb), runFrame_done (Nat.le_of_not_lt hb)]
      exact shown_visible _ s

theorem shown_stepFrame (s : State) : shown (stepFrame s.visible) = shown (stepFrame s) := by
  by_cases hc : s.cart = none
  · rw [stepFrame_of_no_cart hc, stepFrame_of_no_cart (State.visible_cart_eq_none.mpr hc)]
    exact shown_visible _ s
  · have hc' : s.visible.cart ≠ none := mt State.visible_cart_eq_none.mp hc
    cases hf : s.fault with
    | some f =>
      rw [stepFrame_of_fault hc hf, stepFrame_of_fault hc' hf]
      exact shown_visible _ s.beginFrame
    | none =>
      rw [stepFrame_of_running ⟨hc, hf⟩, stepFrame_of_running ⟨hc', hf⟩]
      exact congrArg (fun r => (r.1, r.2.endFrame))
        (shown_runFrame (frameBudget s.phase) (frameBudget s.phase) s.beginFrame)

/-- Every host move but a load shows the same from the visible part. -/
theorem shown_hostMove {m : HostMove} (hm : m.noLoad = true) (s : State) :
    shown (hostMove m s.visible) = shown (hostMove m s) := by
  cases m with
  | loadROM image => cases hm
  | stepFrame => exact congrArg (fun r => (HostReply.frame r.1, r.2)) (shown_stepFrame s)
  | setPpuStatus v => exact shown_visible _ (setPpuStatus v s)

/-- Settles O44: by induction on the moves, each of which shows the same from the visible part. -/
theorem framesHideUnreadState : Obligations.FramesHideUnreadState := by
  intro ms
  induction ms with
  | nil => intro s t _ _; rfl
  | cons m ms ih =>
    intro s t hms h
    have hmove : shown (hostMove m s) = shown (hostMove m t) := by
      rw [← shown_hostMove (hms m List.mem_cons_self) s, h, shown_hostMove (hms m List.mem_cons_self)]
    have hrest := ih (hostMove m s).2 (hostMove m t).2 (fun m' hm' => hms m' (List.mem_cons_of_mem m hm'))
      (congrArg Prod.snd hmove)
    exact congrArg₂ List.cons hmove hrest

end Sys2Proof.Machine
end

section
/-! PROOFS. Family 20_memory.md: the interception of R46 to R48 and the mapper dispatch behind it (R49), the
NROM read map (R50, R51, R53) and write rule (R52), and what never changes a byte the bus reads (R54, R58, R63,
R66). -/

namespace Sys2Proof.Machine

/-! ### The interception and the dispatch to the mapper -/

theorem busRead_status (s : State) : busRead s 0x2002 = .ok s.ppuStatus :=
  if_pos rfl

theorem busWrite_controller (s : State) (v : Byte) :
    busWrite s 0x2000 v = .ok { s with ppuController := v } :=
  if_pos rfl

theorem busRead_mapper {s : State} {addr : Word} (h : addr ≠ 0x2002) : busRead s addr = mapperRead s addr :=
  if_neg h

theorem busWrite_mapper {s : State} {addr : Word} {v : Byte} (h : addr ≠ 0x2000) :
    busWrite s addr v = mapperWrite s addr v :=
  if_neg h

theorem mapperRead_nrom {s : State} {c : Cart} (h : HasNrom s c) (addr : Word) :
    mapperRead s addr = nromRead c addr := by
  obtain ⟨hc, hm⟩ := h
  rw [mapperRead, hc]
  exact if_pos hm

theorem mapperWrite_nrom {s : State} {c : Cart} (h : HasNrom s c) (addr : Word) (v : Byte) :
    mapperWrite s addr v = nromWrite s addr v := by
  obtain ⟨hc, hm⟩ := h
  rw [mapperWrite, hc]
  exact if_pos hm

theorem mapperRead_unknown {s : State} {c : Cart} (hc : HasCart s c) (hm : c.mapperId ≠ 0) (addr : Word) :
    mapperRead s addr = .error (.fault (.unsupportedMapper addr)) := by
  rw [mapperRead, hc]
  exact if_neg hm

theorem mapperWrite_unknown {s : State} {c : Cart} (hc : HasCart s c) (hm : c.mapperId ≠ 0) (addr : Word)
    (v : Byte) : mapperWrite s addr v = .error (.fault (.unsupportedMapper addr)) := by
  rw [mapperWrite, hc]
  exact if_neg hm

/-- Settles O26: neither interception looks at the cartridge. -/
theorem interceptionPrecedesMapper : Obligations.InterceptionPrecedesMapper :=
  fun s v => ⟨busRead_status s, busWrite_controller s v⟩

/-- Settles O29: an access that is not intercepted meets the dispatch before any test of its address. -/
theorem unknownMapperFaults : Obligations.UnknownMapperFaults := by
  intro s c addr v hc hm
  constructor
  · intro h
    rw [busRead_mapper h, mapperRead_unknown hc hm]
  · intro h
    rw [busWrite_mapper h, mapperWrite_unknown hc hm]

/-! ### The offset NROM gives an address -/

theorem nromOffset_below_window {banks : Byte} {addr : Word} (h : addr.toNat < 0x8000) :
    nromOffset banks addr = none := by
  rw [nromOffset, if_neg (by omega), if_neg (by omega)]

theorem nromOffset_lower_half {banks : Byte} {addr : Word} (hlo : 0x8000 ≤ addr.toNat)
    (hhi : addr.toNat < 0xC000) : nromOffset banks addr = some (addr.toNat - 0x8000) := by
  rw [nromOffset, if_neg (by omega), if_pos hlo]

theorem nromOffset_upper_half {banks : Byte} {addr : Word} (h : 0xC000 ≤ addr.toNat) :
    nromOffset banks addr = some (if banks = 2 then addr.toNat - 0x8000 else addr.toNat - 0xC000) :=
  if_pos h

theorem nromOffset_window {banks : Byte} {addr : Word} (h : 0x8000 ≤ addr.toNat) :
    ∃ off, nromOffset banks addr = some off := by
  by_cases hhi : addr.toNat < 0xC000
  · exact ⟨_, nromOffset_lower_half h hhi⟩
  · exact ⟨_, nromOffset_upper_half (by omega)⟩

/-! ### Reads of an NROM cartridge -/

/-- The cartridge's window lies above every intercepted address. -/
theorem ne_of_window {addr io : Word} (hio : io.toNat < 0x8000) (h : 0x8000 ≤ addr.toNat) : addr ≠ io := by
  rintro rfl
  omega

theorem busRead_below_window {s : State} {c : Cart} {addr : Word} (hn : HasNrom s c) (hne : addr ≠ 0x2002)
    (h : addr.toNat < 0x8000) : busRead s addr = .error (.fault (.unsupportedAddress addr)) := by
  rw [busRead_mapper hne, mapperRead_nrom hn, nromRead, nromOffset_below_window h]

/-- With at least one bank the offset is in the buffer (R51), so the read answers the byte there. -/
theorem busRead_window {s : State} {c : Cart} {addr : Word} {off : Nat} (hn : HasNrom s c)
    (hb : c.prgBanks ≠ 0) (h : 0x8000 ≤ addr.toNat) (ho : nromOffset c.prgBanks addr = some off) :
    busRead s addr = .ok (c.prg.read off) := by
  have hin : ¬ c.prgSize ≤ off := Nat.not_le.mpr (nromOffset_lt hb ho)
  rw [busRead_mapper (ne_of_window (by decide) h), mapperRead_nrom hn, nromRead, ho]
  exact if_neg hin

/-- Without a bank the buffer is empty, so no offset is in it (R51). -/
theorem busRead_window_of_no_bank {s : State} {c : Cart} {addr : Word} (hn : HasNrom s c)
    (hb : c.prgBanks = 0) (h : 0x8000 ≤ addr.toNat) :
    busRead s addr = .error (.fault (.prgOutOfRange addr)) := by
  obtain ⟨off, ho⟩ := nromOffset_window (banks := c.prgBanks) h
  have hsize : c.prgSize = 0 := by rw [Cart.prgSize, hb]; rfl
  rw [busRead_mapper (ne_of_window (by decide) h), mapperRead_nrom hn, nromRead, ho]
  exact if_pos (hsize ▸ off.zero_le)

/-- Settles O27: the clauses are the interception, the fault below the window, and the two halves' offsets. -/
theorem nromReadMap : Obligations.NromReadMap := by
  intro s c addr hn hb
  split_ifs with hio hlow hlower htwo
  · rw [hio, busRead_status]
  · exact busRead_below_window hn hio hlow
  · exact busRead_window hn hb (by omega) (nromOffset_lower_half (by omega) hlower)
  · exact busRead_window hn hb (by omega) (by rw [nromOffset_upper_half (by omega), if_pos htwo])
  · exact busRead_window hn hb (by omega) (by rw [nromOffset_upper_half (by omega), if_neg htwo])

/-- Settles O30: with a bank the read answers a byte, without one it faults. -/
theorem prgOutOfRangeOnlyWhenEmpty : Obligations.PrgOutOfRangeOnlyWhenEmpty := by
  intro s c addr hn h
  refine ⟨fun hfault => ?_, fun hb => busRead_window_of_no_bank hn hb h⟩
  by_contra hb
  obtain ⟨off, ho⟩ := nromOffset_window (banks := c.prgBanks) h
  rw [busRead_window hn hb h ho] at hfault
  cases hfault

/-- An address `k` above a base is not wrapped where the sum is below 65536. -/
theorem toNat_add_ofNat {base : Word} {k : Nat} (h : base.toNat + k < 65536) :
    (base + BitVec.ofNat 16 k).toNat = base.toNat + k := by
  rw [BitVec.toNat_add, BitVec.toNat_ofNat, Nat.add_mod_mod, Nat.mod_eq_of_lt h]

/-- Settles O31: with one bank both halves give offset `k` at their `k`-th address. -/
theorem oneBankMirrors : Obligations.OneBankMirrors := by
  intro s c k hn hone hk
  have hb : c.prgBanks ≠ 0 := by rw [hone]; decide
  have htwo : c.prgBanks ≠ 2 := by rw [hone]; decide
  have hlower : (0x8000 + BitVec.ofNat 16 k : Word).toNat = 0x8000 + k :=
    toNat_add_ofNat (base := 0x8000) (show 0x8000 + k < 65536 by omega)
  have hupper : (0xC000 + BitVec.ofNat 16 k : Word).toNat = 0xC000 + k :=
    toNat_add_ofNat (base := 0xC000) (show 0xC000 + k < 65536 by omega)
  constructor
  · refine busRead_window hn hb (by omega) ?_
    rw [nromOffset_lower_half (by omega) (by omega), hlower, Nat.add_sub_cancel_left]
  · refine busRead_window hn hb (by omega) ?_
    rw [nromOffset_upper_half (by omega), if_neg htwo, hupper, Nat.add_sub_cancel_left]

/-! ### Writes of an NROM cartridge -/

theorem busWrite_window {s : State} {c : Cart} {addr : Word} (hn : HasNrom s c) (h : 0x8000 ≤ addr.toNat)
    (v : Byte) : busWrite s addr v = .ok s := by
  rw [busWrite_mapper (ne_of_window (by decide) h), mapperWrite_nrom hn]
  exact if_pos h

theorem busWrite_below_window {s : State} {c : Cart} {addr : Word} (hn : HasNrom s c) (hne : addr ≠ 0x2000)
    (h : addr.toNat < 0x8000) (v : Byte) : busWrite s addr v = .error (.fault (.unsupportedAddress addr)) := by
  rw [busWrite_mapper hne, mapperWrite_nrom hn]
  exact if_neg (Nat.not_le.mpr h)

/-- A write transaction that succeeds is charged one cycle (R81). -/
theorem Transaction.perform_write_ok {s t : State} {addr : Word} {v : Byte} (h : busWrite s addr v = .ok t) :
    (Transaction.write addr v).perform s = .ok t.charge := by
  rw [Transaction.perform, h]
  rfl

/-- Settles O28: in the window the write is discarded, below it the address has no device. -/
theorem nromWriteDiscarded : Obligations.NromWriteDiscarded := by
  intro s c addr v hn
  constructor
  · intro h
    have hw := busWrite_window hn h v
    exact ⟨hw, Transaction.perform_write_ok hw⟩
  · intro h hne
    exact busWrite_below_window hn hne h v

/-! ### The bytes the bus reads -/

/-- Settles O32: a write that succeeds changes at most `ppuController`, which no read depends on. -/
theorem writesAreNeverReadBack : Obligations.WritesAreNeverReadBack := by
  intro s t addr v h
  rcases busWrite_ok h with ⟨_, rfl⟩ | ⟨_, _, rfl, _⟩
  · exact busRead_congr rfl rfl
  · exact busRead_congr rfl rfl

/-- Away from 0x2002 a read depends on the cartridge alone. -/
theorem busRead_of_cart {s t : State} {addr : Word} (hc : t.cart = s.cart) (h : addr ≠ 0x2002) :
    busRead t addr = busRead s addr := by
  rw [busRead_mapper h, busRead_mapper h, mapperRead, mapperRead, hc]

theorem hostMove_cart {m : HostMove} (hm : m.noLoad = true) (s : State) : (hostMove m s).2.cart = s.cart := by
  by_contra hne
  obtain ⟨image, rfl⟩ := onlyLoadReplacesCartridge.1 m s hne
  cases hm

theorem afterMoves_cart {ms : List HostMove} (hms : ∀ m ∈ ms, m.noLoad = true) (s : State) :
    (afterMoves ms s).cart = s.cart := by
  induction ms generalizing s with
  | nil => rfl
  | cons m ms ih =>
    rw [afterMoves, ih (fun m' hm' => hms m' (List.mem_cons_of_mem m hm')),
      hostMove_cart (hms m List.mem_cons_self)]

/-- Settles O38: no move but a load replaces the cartridge, and the cartridge decides every byte away from
0x2002. -/
theorem romNeverChangesWithoutLoad : Obligations.RomNeverChangesWithoutLoad :=
  fun _ms s _addr hms h => busRead_of_cart (afterMoves_cart hms s) h

/-! ### Byte order -/

/-- Settles O33: both values are the high byte joined to the low one. -/
theorem littleEndianPairs : Obligations.LittleEndianPairs := by
  constructor
  · intro s addr lo hi hlo hhi
    exact ⟨joinWord hi lo, memRead16_ok hlo hhi, joinWord_toNat hi lo⟩
  · intro lo hi
    exact ⟨joinWord hi lo, joinWord_toNat hi lo, rfl, rfl⟩

end Sys2Proof.Machine
end

section
/-! PROOFS. Family 30_encoding.md: decode against encode (R70 to R82), the fetches of a step (R76, R78, R80), where
PC stands and what is charged after an instruction (R74, R81, R83), and the assembler's lines (R84, R85). -/

namespace Sys2Proof

/-! ### Table entries and operand bytes -/

/-- The operand bytes of a format, byte 1 then byte 2 (R71): those of the two that it has. -/
def Format.operandBytes : Format → Byte → Byte → List Byte
  | .implied, _, _ => []
  | .immediate, b1, _ => [b1]
  | .relative, b1, _ => [b1]
  | .absolute, b1, b2 => [b1, b2]

/-- Every instruction is its table entry with some operand bytes. -/
theorem Instr.exists_withOperands (i : Instr) : ∃ b1 b2, i = i.op.withOperands b1 b2 := by
  cases i with
  | bpl b | ldxImm b | ldaImm b => exact ⟨b, 0, rfl⟩
  | sei | txs | cld => exact ⟨0, 0, rfl⟩
  | staAbs addr => exact ⟨lo8 addr, hi8 addr, congrArg Instr.staAbs (joinWord_hi8_lo8 addr).symm⟩
  | ldaAbs addr => exact ⟨lo8 addr, hi8 addr, congrArg Instr.ldaAbs (joinWord_hi8_lo8 addr).symm⟩

/-- The encoding of an entry with operand bytes is its opcode and those bytes (R71, R73). -/
theorem encode_withOperands (op : Op) (b1 b2 : Byte) :
    encode (op.withOperands b1 b2) = (rowOf op).opcode :: (rowOf op).format.operandBytes b1 b2 := by
  cases op with
  | bpl | sei | txs | ldxImm | ldaImm | cld => rfl
  | staAbs | ldaAbs => simp [Op.withOperands, encode, rowOf, Format.operandBytes]

/-- The operand bytes of an entry are taken as its operand, and the bytes after them are left. -/
theorem takeOperands_operandBytes (op : Op) (b1 b2 : Byte) (rest : List Byte) :
    takeOperands (rowOf op) ((rowOf op).format.operandBytes b1 b2 ++ rest) =
      .ok (op.withOperands b1 b2, rest) := by
  cases op <;> rfl

/-- Where operands are taken, the bytes start with the operand bytes of the row's format. -/
theorem takeOperands_ok {r : OpcodeRow} {bytes rest : List Byte} {i : Instr}
    (h : takeOperands r bytes = .ok (i, rest)) :
    ∃ b1 b2, i = r.op.withOperands b1 b2 ∧ bytes = r.format.operandBytes b1 b2 ++ rest := by
  unfold takeOperands at h
  split at h <;> cases h <;> rename_i hf
  · exact ⟨0, 0, rfl, by rw [hf]; rfl⟩
  · exact ⟨_, 0, rfl, by rw [hf]; rfl⟩
  · exact ⟨_, 0, rfl, by rw [hf]; rfl⟩
  · exact ⟨_, _, rfl, by rw [hf]; rfl⟩

@[simp] theorem rowOf_op (op : Op) : (rowOf op).op = op := by
  cases op <;> rfl

/-! ### Decode against encode -/

theorem decode_of_opcode (op : Op) (rest : List Byte) :
    decode ((rowOf op).opcode :: rest) = takeOperands (rowOf op) rest := by
  rw [decode, lookupOpcode_eq_some.mpr ⟨op, rfl, rfl⟩]

/-- Bytes that decode start with an opcode of the table, and the rest is decided by its row (R82). -/
theorem decode_ok {bytes rest : List Byte} {i : Instr} (h : decode bytes = .ok (i, rest)) :
    ∃ op more, bytes = (rowOf op).opcode :: more ∧ takeOperands (rowOf op) more = .ok (i, rest) := by
  cases bytes with
  | nil => cases h
  | cons b more =>
    cases hl : lookupOpcode b with
    | none => rw [decode, hl] at h; cases h
    | some r =>
      obtain ⟨op, rfl, rfl⟩ := lookupOpcode_eq_some.mp hl
      exact ⟨op, more, rfl, by rw [← decode_of_opcode, h]⟩

/-- Settles O2: the opcode selects the entry's row, and the operand bytes after it give the operand back. -/
theorem decodeOfEncode : Obligations.DecodeOfEncode := by
  intro i rest
  obtain ⟨b1, b2, hi⟩ := i.exists_withOperands
  rw [hi, encode_withOperands, List.cons_append, decode_of_opcode, takeOperands_operandBytes]

/-- Settles O3: what decodes is an opcode of the table and the operand bytes of its row, which is the encoding
of the entry with those bytes. -/
theorem encodeOfDecode : Obligations.EncodeOfDecode := by
  intro bytes i rest h
  obtain ⟨op, more, rfl, htake⟩ := decode_ok h
  obtain ⟨b1, b2, rfl, rfl⟩ := takeOperands_ok htake
  rw [rowOf_op, encode_withOperands, List.cons_append]

/-- Settles O1: eight words are encodings, and 0xEA is no opcode of the table. -/
theorem specWordsDecode : Obligations.SpecWordsDecode :=
  ⟨decodeOfEncode (.bpl 0xFB) [], decodeOfEncode .sei [], decodeOfEncode (.staAbs 0x2000) [],
    decodeOfEncode .txs [], decodeOfEncode (.ldxImm 0xFF) [], decodeOfEncode (.ldaImm 0x05) [],
    decodeOfEncode (.ldaAbs 0x2002) [], decodeOfEncode .cld [0xEA], rfl⟩

/-! ### The length an opcode gives -/

/-- The encoding of every instruction is its opcode and as many bytes as its length leaves. -/
theorem encodedLength (i : Instr) : Laws.EncodedLength.Statement i := by
  cases i with
  | bpl rel8 => exact Laws.EncodedLength.bpl rel8
  | sei => exact Laws.EncodedLength.sei
  | staAbs addr => exact Laws.EncodedLength.staAbs addr
  | txs => exact Laws.EncodedLength.txs
  | ldxImm imm8 => exact Laws.EncodedLength.ldxImm imm8
  | ldaImm imm8 => exact Laws.EncodedLength.ldaImm imm8
  | ldaAbs addr => exact Laws.EncodedLength.ldaAbs addr
  | cld => exact Laws.EncodedLength.cld

theorem encode_length (i : Instr) : (encode i).length = i.length := by
  obtain ⟨operand, henc, _, hlen⟩ := encodedLength i
  rw [henc, List.length_cons, hlen]

theorem lookupOpcode_of_decode {b : Byte} {rest more : List Byte} {i : Instr}
    (h : decode (b :: rest) = .ok (i, more)) : lookupOpcode b = some i.row := by
  obtain ⟨operand, henc, hrow, _⟩ := encodedLength i
  have hbytes := encodeOfDecode _ _ _ h
  rw [henc, List.cons_append] at hbytes
  obtain ⟨rfl, _⟩ := List.cons.inj hbytes
  exact hrow

/-- The opcodes of the table are the eight of R74. -/
theorem lookupOpcode_eq_none {b : Byte}
    (h : b ∉ ([0x10, 0x78, 0x8D, 0x9A, 0xA2, 0xA9, 0xAD, 0xD8] : List Byte)) : lookupOpcode b = none := by
  by_contra hne
  obtain ⟨r, hr⟩ := Option.ne_none_iff_exists'.mp hne
  obtain ⟨op, _, rfl⟩ := lookupOpcode_eq_some.mp hr
  cases op <;> exact h (by decide)

theorem opcodeLength_eq_none {b : Byte} : opcodeLength b = none ↔ lookupOpcode b = none :=
  Option.map_eq_none_iff

theorem opcodeLength_eq_some {b : Byte} {n : Nat} :
    opcodeLength b = some n ↔ ∃ r, lookupOpcode b = some r ∧ r.format.length = n :=
  Option.map_eq_some_iff

end Sys2Proof

namespace Sys2Proof.Machine

/-! ### The fetches of a step -/

theorem step_of_no_row {s : State} {b : Byte} (hrun : Running s) (hb : busRead s s.pc = .ok b)
    (hrow : lookupOpcode b = none) : step s = .fault (.illegalOpcode b s.pc) := by
  have hfetch : fetchInstr s = .error (.fault (.illegalOpcode b s.pc)) := by
    rw [fetchInstr_of_opcode hb, hrow]
  exact step_of_fetch_error hrun hfetch

/-- Settles O4: what decodes is an encoding, whose opcode selects the instruction's row; the opcodes of the
rows are the eight; and a byte without a row ends the fetch. -/
theorem opcodeAloneGivesLength : Obligations.OpcodeAloneGivesLength := by
  refine ⟨?decoded, ?formats, ?outside, ?faults⟩
  case decoded =>
    intro b rest more i h
    refine ⟨opcodeLength_eq_some.mpr ⟨i.row, lookupOpcode_of_decode h, rfl⟩, ?_⟩
    rw [encodeOfDecode _ _ _ h, List.length_append, encode_length]
  case formats =>
    intro i
    rw [Instr.length]
    cases i.row.format <;> rfl
  case outside => exact fun b h => opcodeLength_eq_none.mpr (lookupOpcode_eq_none h)
  case faults => exact fun s b hrun hb h => step_of_no_row hrun hb (opcodeLength_eq_none.mp h)

/-- Settles O5: a byte outside the eight has no row, so the fetch ends at it. -/
theorem illegalOpcodeFaults : Obligations.IllegalOpcodeFaults :=
  fun _ _ hrun hb h => step_of_no_row hrun hb (lookupOpcode_eq_none h)

/-- A format with an operand ends the fetch where byte 1 cannot be read. -/
theorem fetchOperands_first_error {f : Format} {s : State} {e : Stop} (hf : 2 ≤ f.length)
    (h : busRead s s.pc = .error e) : fetchOperands f s = .error e := by
  rw [fetchOperands_eq, h]
  cases f with
  | implied => exact absurd hf (by decide)
  | immediate | absolute | relative => rfl

/-- A format with an address ends the fetch where byte 2 cannot be read. -/
theorem fetchOperands_second_error {f : Format} {s : State} {e : Stop} {lo : Byte} (hf : 3 ≤ f.length)
    (hlo : busRead s s.pc = .ok lo) (h : busRead s (s.pc + 1) = .error e) :
    fetchOperands f s = .error e := by
  rw [fetchOperands_eq, hlo, h]
  cases f with
  | implied | immediate | relative => exact absurd hf (by decide)
  | absolute => rfl

theorem step_of_operand_error {s : State} {e : Stop} {b : Byte} {r : OpcodeRow} (hrun : Running s)
    (hb : busRead s s.pc = .ok b) (hrow : lookupOpcode b = some r)
    (h : fetchOperands r.format (s.fetched 1) = .error e) : step s = e.toOutcome := by
  have hfetch : fetchInstr s = .error e := by
    rw [fetchInstr_of_opcode hb, hrow]
    exact congrArg (Except.map fun x => r.op.withOperands x.1 x.2) h
  exact step_of_fetch_error hrun hfetch

/-- Settles O7: the opcode's fetch, then byte 1's where the row has one, then byte 2's. -/
theorem firstFaultingFetchEndsStep : Obligations.FirstFaultingFetchEndsStep := by
  intro s e hrun
  refine ⟨fun h => step_of_fetch_error hrun (fetchInstr_of_error h), fun b n hb hn => ?_⟩
  obtain ⟨r, hrow, rfl⟩ := opcodeLength_eq_some.mp hn
  constructor
  · intro hlen h
    exact step_of_operand_error hrun hb hrow (fetchOperands_first_error hlen h)
  · intro lo hlen hlo h
    have hpc : (s.fetched 1).pc + 1 = s.pc + 2 := pc_add_two s.pc
    exact step_of_operand_error hrun hb hrow (fetchOperands_second_error hlen hlo (by rw [hpc]; exact h))

theorem readBytes_succ_ok {s : State} {addr : Word} {n : Nat} {b : Byte} {bs : List Byte} :
    readBytes s addr (n + 1) = .ok (b :: bs) ↔
      busRead s addr = .ok b ∧ readBytes s (addr + 1) n = .ok bs := by
  rw [readBytes]
  cases busRead s addr with
  | error e => simp
  | ok c =>
    dsimp only
    cases readBytes s (addr + 1) n <;> simp

/-- Where bytes can be read, so can as many of them as come first. -/
theorem readBytes_of_append {s : State} {xs ys : List Byte} {addr : Word} {n : Nat}
    (h : readBytes s addr n = .ok (xs ++ ys)) : readBytes s addr xs.length = .ok xs := by
  induction xs generalizing addr n with
  | nil => rfl
  | cons x xs ih =>
    cases n with
    | zero => cases h
    | succ n =>
      obtain ⟨hx, hxs⟩ := readBytes_succ_ok.mp h
      exact readBytes_succ_ok.mpr ⟨hx, ih hxs⟩

/-- Settles O6: the bytes at PC start with the instruction's own encoding, which is what the fetch reads. -/
theorem stepRunsDecodedInstruction : Obligations.StepRunsDecodedInstruction := by
  intro s n bytes rest i hrun hread hdec
  rw [encodeOfDecode _ _ _ hdec] at hread
  have henc := readBytes_of_append hread
  rw [encode_length] at henc
  exact step_of_fetch hrun (fetchInstr_ok.mpr henc)

/-- Settles O8: the machine idles without a cartridge and answers a recorded fault again. -/
theorem noStepWithoutCartridgeOrAfterFault : Obligations.NoStepWithoutCartridgeOrAfterFault :=
  fun _ => ⟨step_of_no_cart, fun _ => step_of_fault⟩

/-! ### PC and cycles after an instruction -/

/-- Settles O24: a BPL with N clear goes to its target, and in every other way of completing PC has moved by
the fetches alone. -/
theorem pcAfterInstruction : Obligations.PcAfterInstruction := by
  intro i s t h
  cases completes_of_exec_next h with
  | bplInPage hN | bplAcrossPages hN => exact .inr ⟨_, rfl, hN, rfl⟩
  | bplNotTaken | sei | staController | staDiscarded | txs | ldxImm | ldaImm | ldaAbs | cld => exact .inl rfl

/-- The cycles of a BPL that completes (R90): 2 not taken, 3 taken in the page, 4 across pages. -/
def bplCycles (s : State) (rel8 : Byte) : Nat :=
  if s.flag .N = true then 2
  else if hi8 (s.pc + 2 + sext16 rel8) = hi8 (s.pc + 2) then 3
  else 4

theorem bplCycles_notTaken {s : State} {rel8 : Byte} (hN : s.flag .N = true) : bplCycles s rel8 = 2 :=
  if_pos hN

theorem bplCycles_inPage {s : State} {rel8 : Byte} (hN : s.flag .N = false)
    (hp : samePage (s.pc + 2) (branchTarget (s.pc + 2) rel8) = true) : bplCycles s rel8 = 3 := by
  rw [bplCycles, if_neg (ne_true_of_eq_false hN)]
  exact if_pos (beq_iff_eq.mp hp)

theorem bplCycles_acrossPages {s : State} {rel8 : Byte} (hN : s.flag .N = false)
    (hp : samePage (s.pc + 2) (branchTarget (s.pc + 2) rel8) = false) : bplCycles s rel8 = 4 := by
  rw [bplCycles, if_neg (ne_true_of_eq_false hN)]
  exact if_neg (beq_eq_false_iff_ne.mp hp)

/-- Settles O39: each way of completing charges its fetches and its data transactions, a branch one more where
it is taken and another where it crosses a page. -/
theorem cyclesOfEachInstruction : Obligations.CyclesOfEachInstruction := by
  intro i s t h
  cases completes_of_exec_next h with
  | @bplNotTaken rel8 hN =>
    exact ⟨Nat.le_refl _, Nat.le_add_right _ 2, congrArg (s.cycles + ·) (bplCycles_notTaken hN).symm⟩
  | @bplInPage rel8 hN hp =>
    exact ⟨Nat.le_add_right _ 1, Nat.le_add_right _ 1, congrArg (s.cycles + ·) (bplCycles_inPage hN hp).symm⟩
  | @bplAcrossPages rel8 hN hp =>
    exact ⟨Nat.le_add_right _ 2, Nat.le_refl _, congrArg (s.cycles + ·) (bplCycles_acrossPages hN hp).symm⟩
  | sei | staController | staDiscarded | txs | ldxImm | ldaImm | ldaAbs | cld =>
    exact ⟨Nat.le_refl _, Nat.le_refl _, rfl⟩

/-! ### What can stop a step

With a cartridge installed, whatever stops a step is a fault with its cause in that cartridge (R110, R111): the
one refusal, `noCartridge`, needs there to be none (log 7). -/

/-- The outcome goes on, or stops with a fault whose cause holds of the cartridge. -/
def StopsWithCause (c : Cart) : Out → Prop
  | .next _ => True
  | .fault f => faultHasCause c f = true
  | .refused _ => False

theorem unsupportedAddress_cause {c : Cart} {addr : Word} (hm : c.mapperId = 0) (hlow : addr.toNat < 0x8000) :
    StopsWithCause c (.fault (.unsupportedAddress addr)) := by
  simp [StopsWithCause, faultHasCause, hm, hlow]

theorem unsupportedMapper_cause {c : Cart} (hm : c.mapperId ≠ 0) (addr : Word) :
    StopsWithCause c (.fault (.unsupportedMapper addr)) :=
  bne_iff_ne.mpr hm

theorem prgOutOfRange_cause {c : Cart} {addr : Word} (hm : c.mapperId = 0) (hb : c.prgBanks = 0)
    (hwin : 0x8000 ≤ addr.toNat) : StopsWithCause c (.fault (.prgOutOfRange addr)) := by
  simp [StopsWithCause, faultHasCause, hm, hb, hwin]

theorem busRead_error_cause {s : State} {c : Cart} {addr : Word} {e : Stop} (hc : HasCart s c)
    (h : busRead s addr = .error e) : StopsWithCause c e.toOutcome := by
  have hne : addr ≠ 0x2002 := by
    rintro rfl
    cases h
  by_cases hm : c.mapperId = 0
  · by_cases hlow : addr.toNat < 0x8000
    · rw [busRead_below_window ⟨hc, hm⟩ hne hlow] at h
      cases h
      exact unsupportedAddress_cause hm hlow
    · have hwin : 0x8000 ≤ addr.toNat := by omega
      by_cases hb : c.prgBanks = 0
      · rw [busRead_window_of_no_bank ⟨hc, hm⟩ hb hwin] at h
        cases h
        exact prgOutOfRange_cause hm hb hwin
      · obtain ⟨off, ho⟩ := nromOffset_window (banks := c.prgBanks) hwin
        rw [busRead_window ⟨hc, hm⟩ hb hwin ho] at h
        cases h
  · rw [busRead_mapper hne, mapperRead_unknown hc hm] at h
    cases h
    exact unsupportedMapper_cause hm addr

theorem busWrite_error_cause {s : State} {c : Cart} {addr : Word} {v : Byte} {e : Stop} (hc : HasCart s c)
    (h : busWrite s addr v = .error e) : StopsWithCause c e.toOutcome := by
  have hne : addr ≠ 0x2000 := by
    rintro rfl
    cases h
  by_cases hm : c.mapperId = 0
  · by_cases hlow : addr.toNat < 0x8000
    · rw [busWrite_below_window ⟨hc, hm⟩ hne hlow] at h
      cases h
      exact unsupportedAddress_cause hm hlow
    · rw [busWrite_window ⟨hc, hm⟩ (by omega)] at h
      cases h
  · rw [busWrite_mapper hne, mapperWrite_unknown hc hm] at h
    cases h
    exact unsupportedMapper_cause hm addr

theorem withRead_cause {s : State} {c : Cart} {addr : Word} {k : Byte → State → Out} (hc : HasCart s c)
    (hk : ∀ v, StopsWithCause c (k v s.charge)) : StopsWithCause c (withRead s addr k) := by
  cases h : busRead s addr with
  | ok v => rw [withRead_ok h]; exact hk v
  | error e => rw [withRead_error h]; exact busRead_error_cause hc h

theorem withDummyRead_cause {s : State} {c : Cart} {addr : Word} {k : State → Out} (hc : HasCart s c)
    (hk : StopsWithCause c (k s.charge)) : StopsWithCause c (withDummyRead s addr k) :=
  withRead_cause hc fun _ => hk

theorem withWrite_cause {s : State} {c : Cart} {addr : Word} {v : Byte} {k : State → Out} (hc : HasCart s c)
    (hk : ∀ u : State, StopsWithCause c (k u)) : StopsWithCause c (withWrite s addr v k) := by
  cases h : busWrite s addr v with
  | ok u => rw [withWrite_ok h]; exact hk u.charge
  | error e => rw [withWrite_error h]; exact busWrite_error_cause hc h

theorem execBpl_cause {s : State} {c : Cart} (hc : HasCart s c) (rel8 : Byte) :
    StopsWithCause c (execBpl rel8 s) := by
  unfold execBpl
  dsimp only
  split
  · trivial
  · refine withDummyRead_cause hc ?_
    split
    · trivial
    · exact withDummyRead_cause hc trivial

theorem impliedThen_cause {s : State} {c : Cart} (hc : HasCart s c) (change : State → State) :
    StopsWithCause c (impliedThen change s) :=
  withDummyRead_cause (s := s.fetched 1) hc trivial

theorem exec_cause {s : State} {c : Cart} (hc : HasCart s c) (i : Instr) : StopsWithCause c (exec i s) := by
  cases i with
  | bpl rel8 => exact execBpl_cause hc rel8
  | sei => exact impliedThen_cause hc fun t => t.setFlag .I true
  | txs => exact impliedThen_cause hc fun t => t.writeReg .SP (t.readReg .X)
  | cld => exact impliedThen_cause hc fun t => t.setFlag .D false
  | ldxImm imm8 | ldaImm imm8 => trivial
  | staAbs addr => exact withWrite_cause (s := s.fetched 3) (k := .next) hc fun _ => trivial
  | ldaAbs addr =>
    exact withRead_cause (s := s.fetched 3) (k := fun v u => .next (u.loadReg .A v)) hc fun _ => trivial

/-- The operand fetches end only at a byte that cannot be read. -/
theorem fetchOperands_error {f : Format} {s : State} {e : Stop} (h : fetchOperands f s = .error e) :
    busRead s s.pc = .error e ∨ busRead s (s.pc + 1) = .error e := by
  rw [fetchOperands_eq] at h
  cases hlo : busRead s s.pc with
  | error e' =>
    rw [hlo] at h
    cases f <;> cases h <;> exact .inl rfl
  | ok lo =>
    rw [hlo] at h
    cases hhi : busRead s (s.pc + 1) with
    | ok hi => rw [hhi] at h; cases f <;> cases h
    | error e' =>
      rw [hhi] at h
      cases f <;> cases h
      exact .inr rfl

theorem fetchInstr_error_cause {s : State} {c : Cart} {e : Stop} (hc : HasCart s c)
    (h : fetchInstr s = .error e) : StopsWithCause c e.toOutcome := by
  cases hb : busRead s s.pc with
  | error e' =>
    rw [fetchInstr_of_error hb] at h
    cases h
    exact busRead_error_cause hc hb
  | ok b =>
    rw [fetchInstr_of_opcode hb] at h
    cases hrow : lookupOpcode b with
    | none =>
      rw [hrow] at h
      cases h
      exact Option.isNone_iff_eq_none.mpr hrow
    | some r =>
      rw [hrow] at h
      dsimp only at h
      cases hop : fetchOperands r.format (s.fetched 1) with
      | ok bs => rw [hop] at h; cases h
      | error e' =>
        rw [hop] at h
        cases h
        rcases fetchOperands_error hop with h1 | h2
        · exact busRead_error_cause (s := s.fetched 1) hc h1
        · exact busRead_error_cause (s := s.fetched 1) hc h2

theorem step_cause {s : State} {c : Cart} (hc : HasCart s c) (hf : s.fault = none) :
    StopsWithCause c (step s) := by
  have hrun : Running s := ⟨Option.ne_none_iff_exists'.mpr ⟨c, hc⟩, hf⟩
  cases hi : fetchInstr s with
  | ok i => rw [step_of_fetch hrun hi]; exact exec_cause hc i
  | error e => rw [step_of_fetch_error hrun hi]; exact fetchInstr_error_cause hc hi

/-- Settles O42: the machine idles without a cartridge, answers a recorded fault again, and otherwise stops
with a fault. -/
theorem stepIsNeverRefused : Obligations.StepIsNeverRefused := by
  intro s r h
  cases hc : s.cart with
  | none => rw [step_of_no_cart hc] at h; cases h
  | some c =>
    cases hf : s.fault with
    | some f =>
      rw [step_of_fault (Option.ne_none_iff_exists'.mpr ⟨c, hc⟩) hf] at h
      cases h
    | none =>
      have hstop := step_cause hc hf
      rwa [h] at hstop

/-! ### The assembler's lines -/

theorem toNat_lo8 (v : Word) : (lo8 v).toNat = v.toNat % 256 := by
  simp [lo8]

/-- The sign extension as a number: R10's two cases, neither of which wraps. -/
theorem toNat_sext16 (b : Byte) :
    (sext16 b).toNat = if b.toNat < 0x80 then b.toNat else b.toNat + 0xFF00 := by
  have hb := b.isLt
  unfold sext16 zext16
  split
  · rw [BitVec.toNat_setWidth, Nat.mod_eq_of_lt (by omega)]
  · rw [BitVec.toNat_add, BitVec.toNat_setWidth]
    change (b.toNat % 65536 + 0xFF00) % 65536 = _
    omega

theorem lo8_sext16 (b : Byte) : lo8 (sext16 b) = b := by
  apply BitVec.eq_of_toNat_eq
  rw [toNat_lo8, toNat_sext16]
  have hb := b.isLt
  split <;> omega

/-- A distance in a branch's reach: −128 to +127, modulo 65536 (R84). -/
def InReach (d : Word) : Prop :=
  d.toNat < 0x80 ∨ 0xFF80 ≤ d.toNat

theorem sext16_inReach (b : Byte) : InReach (sext16 b) := by
  unfold InReach
  rw [toNat_sext16]
  split <;> omega

/-- A distance in reach is the sign extension of its low byte. -/
theorem sext16_lo8 {d : Word} (h : InReach d) : sext16 (lo8 d) = d := by
  apply BitVec.eq_of_toNat_eq
  rw [toNat_sext16, toNat_lo8]
  have hd := d.isLt
  unfold InReach at h
  split <;> omega

/-- A branch line assembles exactly where its distance is in reach, to that distance's low byte (R84). -/
theorem assemble_bpl_eq_some {pc0 target : Word} {i : Instr} :
    assemble pc0 (.bpl target) = some i ↔
      InReach (branchDistance pc0 target) ∧ i = .bpl (lo8 (branchDistance pc0 target)) := by
  have hwf : (Asm.bpl target).wellFormed pc0 = true ↔ InReach (branchDistance pc0 target) := by
    simp [Asm.wellFormed, InReach]
  rw [← hwf, assemble]
  split
  · simp [*, eq_comm]
  · simp [*]

/-- Settles O58: the offset is the low byte of the distance, and in reach it extends to the distance. -/
theorem assembledBranchReachesTarget : Obligations.AssembledBranchReachesTarget := by
  intro pc0 target i h
  obtain ⟨hreach, rfl⟩ := assemble_bpl_eq_some.mp h
  refine ⟨_, rfl, ?_⟩
  rw [branchTarget, sext16_lo8 hreach, branchDistance, add_sub_cancel]

theorem branchDistance_branchTarget (pc0 : Word) (rel8 : Byte) :
    branchDistance pc0 (branchTarget (pc0 + 2) rel8) = sext16 rel8 := by
  rw [branchDistance, branchTarget, add_sub_cancel_left]

/-- Settles O59: the distance to a BPL's target is its offset sign-extended, which is in reach and has the
offset as its low byte; every other line carries its operand as it is. -/
theorem assembleOfDisassemble : Obligations.AssembleOfDisassemble := by
  intro pc0 i
  cases i with
  | bpl rel8 =>
    rw [disassemble, assemble_bpl_eq_some, branchDistance_branchTarget, lo8_sext16]
    exact ⟨sext16_inReach rel8, rfl⟩
  | sei | staAbs | txs | ldxImm | ldaImm | ldaAbs | cld => rfl

end Sys2Proof.Machine
end

section
/-! PROOFS. Family 40_branch.md: where a BPL goes, in how many cycles, and what ends it (R90, R111). -/

namespace Sys2Proof.Machine

/-! ### What a BPL does, from the flag N and the bytes its dummy reads meet -/

theorem exec_bpl_notTaken {rel8 : Byte} {s : State} (hN : s.flag .N = true) :
    exec (.bpl rel8) s = .next (s.fetched 2) :=
  if_pos hN

/-- A taken BPL starts with the dummy read of the byte after it. -/
theorem exec_bpl_of_read_error {rel8 : Byte} {s : State} {e : Stop} (hN : s.flag .N = false)
    (he : busRead s (s.pc + 2) = .error e) : exec (.bpl rel8) s = e.toOutcome :=
  (if_neg (ne_true_of_eq_false hN)).trans (withDummyRead_error (s := s.fetched 2) he)

/-- A taken BPL whose first dummy read succeeds completes in the page, or goes on to the second. -/
theorem exec_bpl_of_read {rel8 v : Byte} {s : State} (hN : s.flag .N = false)
    (hv : busRead s (s.pc + 2) = .ok v) :
    exec (.bpl rel8) s =
      if samePage (s.pc + 2) (branchTarget (s.pc + 2) rel8) then
        .next ((s.fetched 2).charge.setPc (branchTarget (s.pc + 2) rel8))
      else
        withDummyRead (s.fetched 2).charge (halfCarriedAddr (s.pc + 2) (branchTarget (s.pc + 2) rel8))
          fun u => .next (u.setPc (branchTarget (s.pc + 2) rel8)) :=
  (if_neg (ne_true_of_eq_false hN)).trans (withDummyRead_ok (s := s.fetched 2) hv)

theorem exec_bpl_inPage {rel8 v : Byte} {s : State} (hN : s.flag .N = false)
    (hv : busRead s (s.pc + 2) = .ok v) (hp : hi8 (s.pc + 2 + sext16 rel8) = hi8 (s.pc + 2)) :
    exec (.bpl rel8) s = .next ((s.fetched 2).charge.setPc (s.pc + 2 + sext16 rel8)) :=
  (exec_bpl_of_read hN hv).trans (if_pos (beq_iff_eq.mpr hp))

/-- A BPL that crosses a page comes down to its second dummy read, at the half-carried address. -/
theorem exec_bpl_acrossPages {rel8 v : Byte} {s : State} (hN : s.flag .N = false)
    (hv : busRead s (s.pc + 2) = .ok v) (hp : hi8 (s.pc + 2 + sext16 rel8) ≠ hi8 (s.pc + 2)) :
    exec (.bpl rel8) s =
      withDummyRead (s.fetched 2).charge (halfCarriedAddr (s.pc + 2) (s.pc + 2 + sext16 rel8))
        fun u => .next (u.setPc (s.pc + 2 + sext16 rel8)) :=
  (exec_bpl_of_read hN hv).trans (if_neg fun h => hp (beq_iff_eq.mp h))

/-- Whichever way a BPL completes (R90), it leaves all but PC and the cycle count alone. -/
theorem exec_bpl_onlyPcMoves {rel8 : Byte} {s t : State} (h : exec (.bpl rel8) s = .next t) :
    OnlyPcMoves s t := by
  have hout := exec_sameOutside h
  rcases exec_bpl_next h with ⟨_, rfl⟩ | ⟨_, _, rfl⟩ | ⟨_, _, rfl⟩ <;>
    exact ⟨rfl, rfl, rfl, fun _ _ => rfl, rfl, hout⟩

/-! ### Not taken, in the page, across pages, and stopped -/

/-- Settles O16: a BPL not taken is its two fetches and no further access. -/
theorem bplNotTakenWhenNegative : Obligations.BplNotTakenWhenNegative := by
  intro rel8 s hN
  have hexec := exec_bpl_notTaken (rel8 := rel8) hN
  exact ⟨_, hexec, rfl, rfl, exec_bpl_onlyPcMoves hexec⟩

/-- Settles O17: the two fetches and the first dummy read, then PC is the target. -/
theorem bplTakenInPage : Obligations.BplTakenInPage := by
  intro rel8 s v hN hv hp
  have hexec := exec_bpl_inPage hN hv hp
  exact ⟨_, hexec, rfl, rfl, exec_bpl_onlyPcMoves hexec⟩

/-- Settles O18: the two fetches and both dummy reads, then PC is the target. -/
theorem bplTakenAcrossPages : Obligations.BplTakenAcrossPages := by
  intro rel8 s v w hN hv hp hw
  have hexec := (exec_bpl_acrossPages hN hv hp).trans (withDummyRead_ok (s := (s.fetched 2).charge) hw)
  exact ⟨_, hexec, rfl, rfl, exec_bpl_onlyPcMoves hexec⟩

/-- Settles O20: the dummy read that faults is the transaction the BPL has come to. -/
theorem bplDummyReadFaults : Obligations.BplDummyReadFaults := by
  intro rel8 s e hN
  refine ⟨exec_bpl_of_read_error hN, fun v hv hp he => ?_⟩
  exact (exec_bpl_acrossPages hN hv hp).trans (withDummyRead_error (s := (s.fetched 2).charge) he)

end Sys2Proof.Machine
end

section
/-! PROOFS. Family 41_implied.md: what SEI, TXS and CLD change, and the dummy read that ends them (R95 to R98). -/

namespace Sys2Proof.Machine

/-! ### Setting one flag -/

theorem State.flag_setFlag_self (s : State) (f : Flag) (b : Bool) : (s.setFlag f b).flag f = b := by
  rw [State.flag_setFlag, if_pos rfl]

theorem State.setFlag_flagsSameBut (s : State) (f : Flag) (b : Bool) : FlagsSameBut [f] s (s.setFlag f b) := by
  intro g hg
  rw [State.flag_setFlag, if_neg (List.ne_of_not_mem_cons hg)]

/-! ### The three implied instructions -/

/-- Settles O13: where the dummy read succeeds, I is set in the fetched and charged state. -/
theorem seiSetsInterruptDisable : Obligations.SeiSetsInterruptDisable := by
  refine fun s => ⟨fun v hv => ?_, fun e => impliedThen_error (change := fun t => t.setFlag .I true)⟩
  have hexec := exec_sei_next.mpr ⟨⟨v, hv⟩, rfl⟩
  exact ⟨_, hexec, State.flag_setFlag_self _ _ _, State.setFlag_flagsSameBut (s.fetched 1).charge .I true,
    rfl, rfl, rfl, rfl, rfl, rfl, exec_sameOutside hexec⟩

/-- Settles O14: where the dummy read succeeds, X is copied to SP in the fetched and charged state. -/
theorem txsCopiesXToSp : Obligations.TxsCopiesXToSp := by
  refine fun s => ⟨fun v hv => ?_, fun e => impliedThen_error (change := fun t => t.writeReg .SP (t.readReg .X))⟩
  have hexec := exec_txs_next.mpr ⟨⟨v, hv⟩, rfl⟩
  exact ⟨_, hexec, rfl, fun f _ => State.flag_writeReg_SP (s.fetched 1).charge s.x f, rfl, rfl, rfl, rfl, rfl,
    exec_sameOutside hexec⟩

/-- Settles O15: where the dummy read succeeds, D is cleared in the fetched and charged state. -/
theorem cldClearsDecimal : Obligations.CldClearsDecimal := by
  refine fun s => ⟨fun v hv => ?_, fun e => impliedThen_error (change := fun t => t.setFlag .D false)⟩
  have hexec := exec_cld_next.mpr ⟨⟨v, hv⟩, rfl⟩
  exact ⟨_, hexec, State.flag_setFlag_self _ _ _, State.setFlag_flagsSameBut (s.fetched 1).charge .D false,
    rfl, rfl, rfl, rfl, rfl, rfl, exec_sameOutside hexec⟩

end Sys2Proof.Machine
end

section
/-! PROOFS. Family 42_load_store.md: the N/Z rule (R100), and what STA, LDX and LDA write, where they complete and
what ends them (R101 to R104). -/

namespace Sys2Proof.Machine

/-! ### The N/Z rule -/

/-- A byte with bit 7 set is not 0. -/
theorem not_negative_and_zero (v : Byte) : ¬(v.getLsbD 7 = true ∧ (v == 0) = true) := by
  rintro ⟨hN, hZ⟩
  obtain rfl := eq_of_beq hZ
  exact absurd hN (by decide)

theorem State.flag_updateNZ_Z (s : State) (v : Byte) : (s.updateNZ v).flag .Z = (v == 0) :=
  s.flag_updateNZ v .Z

theorem State.flag_updateNZ_N (s : State) (v : Byte) : (s.updateNZ v).flag .N = v.getLsbD 7 :=
  s.flag_updateNZ v .N

theorem State.updateNZ_flagsSameBut (s : State) (v : Byte) : FlagsSameBut [.N, .Z] s (s.updateNZ v) := by
  intro g hg
  by_contra hne
  rcases State.flag_updateNZ_ne hne with rfl | rfl
  · exact hg List.mem_cons_self
  · exact hg (List.mem_cons_of_mem _ List.mem_cons_self)

/-- `UpdateNZ` makes N and Z the two facts of the byte, and no byte has both (R100). -/
theorem State.updateNZ_rule (s : State) (v : Byte) :
    (s.updateNZ v).flag .Z = (v == 0) ∧ (s.updateNZ v).flag .N = v.getLsbD 7 ∧
      ¬((s.updateNZ v).flag .N = true ∧ (s.updateNZ v).flag .Z = true) ∧
      FlagsSameBut [.N, .Z] s (s.updateNZ v) := by
  refine ⟨s.flag_updateNZ_Z v, s.flag_updateNZ_N v, ?_, s.updateNZ_flagsSameBut v⟩
  rw [State.flag_updateNZ_N, State.flag_updateNZ_Z]
  exact not_negative_and_zero v

/-- Settles O21: a load ends in `UpdateNZ` of its byte, SEI and CLD set another flag, and the others leave P
alone. -/
theorem negativeZeroRule : Obligations.NegativeZeroRule := by
  intro i s t h
  cases completes_of_exec_next h with
  | @ldxImm imm8 => exact (s.fetched 2).updateNZ_rule imm8
  | @ldaImm imm8 => exact (s.fetched 2).updateNZ_rule imm8
  | @ldaAbs addr v => exact (s.fetched 3).charge.updateNZ_rule v
  | sei =>
    have hkeep := State.setFlag_flagsSameBut (s.fetched 1).charge .I true
    exact ⟨hkeep .Z (by decide), hkeep .N (by decide)⟩
  | cld =>
    have hkeep := State.setFlag_flagsSameBut (s.fetched 1).charge .D false
    exact ⟨hkeep .Z (by decide), hkeep .N (by decide)⟩
  | bplNotTaken | bplInPage | bplAcrossPages | staController | staDiscarded | txs => exact ⟨rfl, rfl⟩

/-! ### An operand byte that cannot be fetched -/

theorem step_of_byte1_error {s : State} {e : Stop} {op : Byte} {n : Nat} (hrun : Running s)
    (hop : busRead s s.pc = .ok op) (hn : opcodeLength op = some n) (hlen : 2 ≤ n)
    (he : busRead s (s.pc + 1) = .error e) : step s = e.toOutcome := by
  obtain ⟨_, hoperands⟩ := firstFaultingFetchEndsStep s e hrun
  obtain ⟨hbyte1, _⟩ := hoperands op n hop hn
  exact hbyte1 hlen he

theorem step_of_byte2_error {s : State} {e : Stop} {op lo : Byte} {n : Nat} (hrun : Running s)
    (hop : busRead s s.pc = .ok op) (hn : opcodeLength op = some n) (hlen : 3 ≤ n)
    (hlo : busRead s (s.pc + 1) = .ok lo) (he : busRead s (s.pc + 2) = .error e) :
    step s = e.toOutcome := by
  obtain ⟨_, hoperands⟩ := firstFaultingFetchEndsStep s e hrun
  obtain ⟨_, hbyte2⟩ := hoperands op n hop hn
  exact hbyte2 lo hlen hlo he

/-! ### The loads -/

/-- An LDA whose read faults ends with that fault. -/
theorem exec_ldaAbs_error {addr : Word} {s : State} {e : Stop} (h : busRead s addr = .error e) :
    exec (.ldaAbs addr) s = e.toOutcome := by
  rw [exec, execLdaAbs]
  exact withRead_error h

/-- Settles O11: where the byte can be read it is loaded into the fetched and charged state. -/
theorem ldaAbsoluteLoadsA : Obligations.LdaAbsoluteLoadsA := by
  refine fun addr s => ⟨fun v hv => ?_, fun e => exec_ldaAbs_error⟩
  have hexec := exec_ldaAbs_next.mpr ⟨v, hv, rfl⟩
  obtain ⟨hZ, hN, _, hkeep⟩ := (s.fetched 3).charge.updateNZ_rule v
  exact ⟨_, hexec, rfl, rfl, rfl, hZ, hN, hkeep, rfl, rfl, rfl, exec_sameOutside hexec⟩

/-- Settles O9: the operand byte is loaded into the fetched state. -/
theorem ldaImmediateLoadsA : Obligations.LdaImmediateLoadsA := by
  refine fun imm8 s => ⟨rfl, ?_, fun e hrun hop he => step_of_byte1_error hrun hop rfl (Nat.le_refl 2) he⟩
  have hexec := exec_ldaImm_next.mpr (rfl : _ = (s.fetched 2).loadReg .A imm8)
  obtain ⟨hZ, hN, _, hkeep⟩ := (s.fetched 2).updateNZ_rule imm8
  exact ⟨_, hexec, rfl, rfl, rfl, hZ, hN, hkeep, rfl, rfl, rfl, exec_sameOutside hexec⟩

/-- Settles O10: the operand byte is loaded into the fetched state. -/
theorem ldxImmediateLoadsX : Obligations.LdxImmediateLoadsX := by
  refine fun imm8 s => ⟨rfl, ?_, fun e hrun hop he => step_of_byte1_error hrun hop rfl (Nat.le_refl 2) he⟩
  have hexec := exec_ldxImm_next.mpr (rfl : _ = (s.fetched 2).loadReg .X imm8)
  obtain ⟨hZ, hN, _, hkeep⟩ := (s.fetched 2).updateNZ_rule imm8
  exact ⟨_, hexec, rfl, rfl, rfl, hZ, hN, hkeep, rfl, rfl, rfl, exec_sameOutside hexec⟩

/-! ### The store -/

/-- Where the write is intercepted (R47) or discarded (R52), the STA completes. -/
theorem exec_staAbs_completes {addr : Word} {s : State}
    (h : addr = 0x2000 ∨ ((∃ c, HasNrom s c) ∧ 0x8000 ≤ addr.toNat)) :
    ∃ t, exec (.staAbs addr) s = .next t := by
  rcases h with rfl | ⟨⟨c, hn⟩, hwin⟩
  · exact ⟨_, exec_staAbs_next.mpr ⟨_, busWrite_controller (s.fetched 3) s.a, rfl⟩⟩
  · exact ⟨_, exec_staAbs_next.mpr ⟨_, busWrite_window (s := s.fetched 3) hn hwin s.a, rfl⟩⟩

/-- What an STA that completes leaves (R101): only PC, the cycle count and, at 0x2000, `ppuController` move. -/
theorem exec_staAbs_frame {addr : Word} {s t : State} (h : exec (.staAbs addr) s = .next t) :
    t.pc = s.pc + 3 ∧ t.cycles = s.cycles + 4 ∧
      t.ppuController = (if addr = 0x2000 then s.a else s.ppuController) ∧
      t.a = s.a ∧ t.x = s.x ∧ t.sp = s.sp ∧ FlagsSameBut [] s t ∧ SameOutside s t := by
  have hout := exec_sameOutside h
  cases completes_of_exec_next h with
  | staController => exact ⟨rfl, rfl, (if_pos rfl).symm, rfl, rfl, rfl, fun _ _ => rfl, hout⟩
  | staDiscarded hne => exact ⟨rfl, rfl, (if_neg hne).symm, rfl, rfl, rfl, fun _ _ => rfl, hout⟩

/-- An STA whose write faults ends with that fault. -/
theorem exec_staAbs_error {addr : Word} {s : State} {e : Stop}
    (h : busWrite (s.fetched 3) addr s.a = .error e) : exec (.staAbs addr) s = e.toOutcome :=
  withWrite_error h

/-- Settles O12: the write is intercepted, discarded, outside NROM's window, or another mapper's. -/
theorem staAbsoluteWritesA : Obligations.StaAbsoluteWritesA := by
  intro addr s
  refine ⟨rfl, ?completes, ?belowWindow, ?unknownMapper, ?operandFetch⟩
  case completes =>
    intro h
    obtain ⟨t, hexec⟩ := exec_staAbs_completes h
    exact ⟨t, hexec, exec_staAbs_frame hexec⟩
  case belowWindow =>
    intro c hn hne hlow
    exact exec_staAbs_error (busWrite_below_window (s := s.fetched 3) hn hne hlow s.a)
  case unknownMapper =>
    intro c hc hm hne
    obtain ⟨_, hwrite⟩ := unknownMapperFaults (s.fetched 3) c addr s.a hc hm
    exact exec_staAbs_error (hwrite hne)
  case operandFetch =>
    intro e hrun hop
    have hlen : opcodeLength 0x8D = some 3 := rfl
    exact ⟨step_of_byte1_error hrun hop hlen (by decide),
      fun lo => step_of_byte2_error hrun hop hlen (Nat.le_refl 3)⟩

end Sys2Proof.Machine
end

section
/-! PROOFS. Family 60_exceptions.md: the cause of each fault (R110, R111), what a fault leaves of the call it ends
(R113, R114) and of every later call (R115), the refused load (R116), the host's setting of `ppuStatus` (R129), and
the invariant that every interaction of the host keeps (R128). -/

namespace Sys2Proof.Machine

/-! ### The host's setting of `ppuStatus`, and a load that is refused -/

/-- Settles O53: `ppuStatus` is the byte read at 0x2002, and every other read depends on the cartridge alone. -/
theorem hostSetsPpuStatus : Obligations.HostSetsPpuStatus :=
  fun s v => ⟨rfl, busRead_status (setPpuStatus v s), fun _ h => busRead_of_cart rfl h⟩

/-- Settles O54: the checks of R140 in their order, each after the ones before it have passed. -/
theorem failedLoadChangesNothing : Obligations.FailedLoadChangesNothing := by
  intro image s
  refine ⟨fun hshort => if_pos hshort, fun hlen hmagic => ?_, fun hlen hmagic hneed => ?_⟩
  · rw [loadROM, if_neg (Nat.not_lt.mpr hlen)]
    exact if_pos hmagic
  · have hines : image.take 4 = inesMagic := hmagic
    rw [loadROM, if_neg (Nat.not_lt.mpr hlen), if_neg (not_not_intro hines)]
    exact if_pos hneed

/-! ### The bus access or the decode that a fault comes from -/

/-- A read that faults, or the fault of what follows it. -/
theorem withRead_fault {s : State} {addr : Word} {k : Byte → State → Out} {f : Fault}
    (h : withRead s addr k = .fault f) :
    busRead s addr = .error (.fault f) ∨ ∃ v, k v s.charge = .fault f := by
  cases hr : busRead s addr with
  | ok v => exact .inr ⟨v, by rwa [withRead_ok hr] at h⟩
  | error e =>
    rw [withRead_error hr] at h
    cases e <;> cases h
    exact .inl rfl

theorem withDummyRead_fault {s : State} {addr : Word} {k : State → Out} {f : Fault}
    (h : withDummyRead s addr k = .fault f) :
    busRead s addr = .error (.fault f) ∨ k s.charge = .fault f :=
  (withRead_fault h).imp_right fun ⟨_, hk⟩ => hk

theorem withWrite_fault {s : State} {addr : Word} {v : Byte} {k : State → Out} {f : Fault}
    (h : withWrite s addr v k = .fault f) :
    busWrite s addr v = .error (.fault f) ∨ ∃ u : State, k u.charge = .fault f := by
  cases hw : busWrite s addr v with
  | ok u => exact .inr ⟨u, by rwa [withWrite_ok hw] at h⟩
  | error e =>
    rw [withWrite_error hw] at h
    cases e <;> cases h
    exact .inl rfl

/-- The fault is that of a read of the machine, or of a write, which an STA makes after its three fetches. -/
def FaultOfAccess (s : State) (f : Fault) : Prop :=
  (∃ addr, busRead s addr = .error (.fault f)) ∨
    ∃ addr v, busWrite (s.fetched 3) addr v = .error (.fault f)

theorem execBpl_fault {rel8 : Byte} {s : State} {f : Fault} (h : execBpl rel8 s = .fault f) :
    ∃ addr, busRead s addr = .error (.fault f) := by
  unfold execBpl at h
  dsimp only at h
  split at h
  · cases h
  · rcases withDummyRead_fault h with hr | h
    · exact ⟨_, hr⟩
    · split at h
      · cases h
      · rcases withDummyRead_fault h with hr | h
        · exact ⟨_, hr⟩
        · cases h

theorem impliedThen_fault {change : State → State} {s : State} {f : Fault}
    (h : impliedThen change s = .fault f) : ∃ addr, busRead s addr = .error (.fault f) := by
  rcases withDummyRead_fault h with hr | h
  · exact ⟨_, hr⟩
  · cases h

/-- No meaning raises a fault of its own. -/
theorem exec_fault {i : Instr} {s : State} {f : Fault} (h : exec i s = .fault f) : FaultOfAccess s f := by
  cases i with
  | bpl rel8 => exact .inl (execBpl_fault h)
  | sei => exact .inl (impliedThen_fault (change := fun t => t.setFlag .I true) h)
  | txs => exact .inl (impliedThen_fault (change := fun t => t.writeReg .SP (t.readReg .X)) h)
  | cld => exact .inl (impliedThen_fault (change := fun t => t.setFlag .D false) h)
  | ldxImm imm8 | ldaImm imm8 => cases h
  | staAbs addr =>
    rcases withWrite_fault (s := s.fetched 3) (k := .next) h with hw | ⟨u, hnext⟩
    · exact .inr ⟨addr, s.a, hw⟩
    · cases hnext
  | ldaAbs addr =>
    rcases withRead_fault (s := s.fetched 3) (k := fun v u => .next (u.loadReg .A v)) h with hr | ⟨v, hnext⟩
    · exact .inl ⟨addr, hr⟩
    · cases hnext

/-- A fetch ends at a byte that cannot be read, or at an opcode that the table does not have (R76). -/
theorem fetchInstr_error {s : State} {e : Stop} (h : fetchInstr s = .error e) :
    (∃ addr, busRead s addr = .error e) ∨
      ∃ b, busRead s s.pc = .ok b ∧ lookupOpcode b = none ∧ e = .fault (.illegalOpcode b s.pc) := by
  cases hb : busRead s s.pc with
  | error e' =>
    rw [fetchInstr_of_error hb] at h
    cases h
    exact .inl ⟨s.pc, hb⟩
  | ok b =>
    rw [fetchInstr_of_opcode hb] at h
    cases hrow : lookupOpcode b with
    | none =>
      rw [hrow] at h
      cases h
      exact .inr ⟨b, rfl, hrow, rfl⟩
    | some r =>
      rw [hrow] at h
      dsimp only at h
      cases hop : fetchOperands r.format (s.fetched 1) with
      | ok bs => rw [hop] at h; cases h
      | error e' =>
        rw [hop] at h
        cases h
        rcases fetchOperands_error hop with h1 | h2
        · exact .inl ⟨_, h1⟩
        · exact .inl ⟨_, h2⟩

/-- Everything a step of a running machine that faults can be. -/
theorem step_fault {s : State} {f : Fault} (hrun : Running s) (h : step s = .fault f) :
    FaultOfAccess s f ∨
      ∃ b, busRead s s.pc = .ok b ∧ lookupOpcode b = none ∧ f = .illegalOpcode b s.pc := by
  cases hi : fetchInstr s with
  | ok i =>
    rw [step_of_fetch hrun hi] at h
    exact .inl (exec_fault h)
  | error e =>
    rw [step_of_fetch_error hrun hi] at h
    cases e <;> cases h
    rcases fetchInstr_error hi with hr | ⟨b, hb, hrow, he⟩
    · exact .inl (.inl hr)
    · cases he
      exact .inr ⟨b, hb, hrow, rfl⟩

theorem busRead_ne_illegalOpcode (s : State) (addr : Word) (op : Byte) (pc0 : Word) :
    busRead s addr ≠ .error (.fault (.illegalOpcode op pc0)) := by
  unfold busRead mapperRead nromRead
  repeat' split
  all_goals nofun

theorem busWrite_ne_illegalOpcode (s : State) (addr : Word) (v op : Byte) (pc0 : Word) :
    busWrite s addr v ≠ .error (.fault (.illegalOpcode op pc0)) := by
  unfold busWrite mapperWrite nromWrite
  repeat' split
  all_goals nofun

/-- The bus raises the three faults of its mapper, and never that of an opcode. -/
theorem not_faultOfAccess_illegalOpcode {s : State} {op : Byte} {pc0 : Word} :
    ¬ FaultOfAccess s (.illegalOpcode op pc0) := by
  rintro (⟨addr, hr⟩ | ⟨addr, v, hw⟩)
  · exact busRead_ne_illegalOpcode s addr op pc0 hr
  · exact busWrite_ne_illegalOpcode (s.fetched 3) addr v op pc0 hw

theorem step_illegalOpcode {s : State} {op : Byte} {pc0 : Word} (hrun : Running s)
    (h : step s = .fault (.illegalOpcode op pc0)) :
    pc0 = s.pc ∧ busRead s s.pc = .ok op ∧ lookupOpcode op = none := by
  rcases step_fault hrun h with hacc | ⟨b, hb, hrow, hf⟩
  · exact absurd hacc not_faultOfAccess_illegalOpcode
  · cases hf
    exact ⟨rfl, hb, hrow⟩

/-- Settles O41: the illegal opcode is the byte at PC, and the access faults have their cause in the
cartridge. -/
theorem faultsHaveTheirCause : Obligations.FaultsHaveTheirCause := by
  intro s c f hc hf h
  have hcause : StopsWithCause c (step s) := step_cause hc hf
  rw [h] at hcause
  cases f with
  | illegalOpcode op pc0 =>
    obtain ⟨rfl, hb, hrow⟩ := step_illegalOpcode ⟨Option.ne_none_iff_exists'.mpr ⟨c, hc⟩, hf⟩ h
    exact ⟨rfl, hb, opcodeLength_eq_none.mpr hrow⟩
  | unsupportedAddress addr | unsupportedMapper addr | prgOutOfRange addr =>
    simpa [StopsWithCause, faultHasCause, and_assoc] using hcause

/-! ### A recorded fault and the calls after it -/

@[simp] theorem Phase.toggle_toggle (p : Phase) : p.toggle.toggle = p := by
  cases p <;> rfl

/-- Calls of a faulted machine only toggle the phase (R115, D12, D17). -/
theorem frames_of_fault {s : State} {f : Fault} (n : Nat) (hc : s.cart ≠ none) (hf : s.fault = some f)
    (h0 : s.cycles = 0) : frames n s = { s with phase := if n % 2 = 0 then s.phase else s.phase.toggle } := by
  induction n generalizing s with
  | zero => rfl
  | succ n ih =>
    have hcall : (stepFrame s).2 = { s with phase := s.phase.toggle } := by
      rw [stepFrame_of_fault hc hf, State.beginFrame, ← h0]
    rw [frames, hcall, ih (s := { s with phase := s.phase.toggle }) hc hf h0]
    rcases Nat.mod_two_eq_zero_or_one n with hn | hn <;> simp [hn, Nat.add_mod]

/-- Settles O46: each call toggles the phase and leaves the fault for the next one. -/
theorem recordedFaultIsReturnedForever : Obligations.RecordedFaultIsReturnedForever := by
  intro n s f hc hf h0
  have hframes := frames_of_fault n hc hf h0
  have hcall := stepFrame_of_fault (s := frames n s) (f := f) (by rw [hframes]; exact hc)
    (by rw [hframes]; exact hf)
  exact ⟨congrArg Prod.fst hcall, hframes⟩

/-! ### The loop of a call, along the steps it runs -/

theorem Instr.two_le_minCycles (i : Instr) : 2 ≤ i.row.minCycles := by
  rw [Instr.row]
  cases i.op <;> decide

/-- A step of a running machine charges the call (R81). -/
theorem step_cycles_lt {s t : State} (hrun : Running s) (h : step s = .next t) : s.cycles < t.cycles := by
  rcases step_next h with ⟨hc, _⟩ | ⟨_, i, _, hi⟩
  · exact absurd hc hrun.1
  · obtain ⟨hmin, _⟩ := cyclesOfEachInstruction i s t hi
    have := Instr.two_le_minCycles i
    omega

theorem SameOutside.running {s t : State} (h : SameOutside s t) (hrun : Running s) : Running t := by
  obtain ⟨hcart, _, hfault, _⟩ := h
  rwa [Running, hcart, hfault]

theorem SameOutside.trans {s t u : State} (hst : SameOutside s t) (htu : SameOutside t u) : SameOutside s u := by
  obtain ⟨hcart, hphase, hfault, hstatus, hfree, _⟩ := hst
  obtain ⟨hcart', hphase', hfault', hstatus', hfree', _⟩ := htu
  exact sameOutside_of_fields (hcart'.trans hcart) (hphase'.trans hphase) (hfault'.trans hfault)
    (hstatus'.trans hstatus) (hfree'.trans hfree)

theorem run_sameOutside {n : Nat} {s u : State} (h : Sys2Proof.core.run n s = .next u) : SameOutside s u := by
  induction n generalizing s with
  | zero =>
    cases h
    exact sameOutside_of_fields rfl rfl rfl rfl rfl
  | succ n ih =>
    obtain ⟨t, hst, htu⟩ := run_succ_inv h
    exact (step_sameOutside hst).trans (ih htu)

/-- The loop follows a run whose steps all start below the budget. The fuel lasts, because every step charges
the call: what is left of it covers what is left of the budget. -/
theorem runFrame_of_run {n fuel budget : Nat} {s u : State} (hrun : Running s)
    (h : Sys2Proof.core.run n s = .next u)
    (hbelow : ∀ k < n, ∀ v : State, Sys2Proof.core.run k s = .next v → v.cycles < budget)
    (hfuel : budget ≤ s.cycles + fuel) :
    ∃ left, budget ≤ u.cycles + left ∧ runFrame fuel budget s = runFrame left budget u := by
  induction n generalizing fuel s with
  | zero =>
    cases h
    exact ⟨fuel, hfuel, rfl⟩
  | succ n ih =>
    obtain ⟨t, hst, htu⟩ := run_succ_inv h
    have hb : s.cycles < budget := hbelow 0 n.succ_pos s rfl
    have hlt : s.cycles < t.cycles := step_cycles_lt hrun hst
    obtain ⟨fuel, rfl⟩ : ∃ m, fuel = m + 1 := Nat.exists_eq_add_one.mpr (by omega)
    rw [runFrame_next hb hst]
    refine ih ((step_sameOutside hst).running hrun) htu (fun k hk v hv => ?_) (by omega)
    exact hbelow (k + 1) (Nat.succ_lt_succ hk) v (by rwa [run_succ_next k hst])

/-- The loop ends with the fault of the step it has come to, recorded in the state before that step (R113). -/
theorem runFrame_of_run_fault {n fuel budget : Nat} {s u : State} {f : Fault} (hrun : Running s)
    (h : Sys2Proof.core.run n s = .next u)
    (hbelow : ∀ k ≤ n, ∀ v : State, Sys2Proof.core.run k s = .next v → v.cycles < budget)
    (hfuel : budget ≤ s.cycles + fuel) (hf : step u = .fault f) :
    runFrame fuel budget s = (.fault f, recordFault f u) := by
  obtain ⟨left, hleft, heq⟩ := runFrame_of_run hrun h (fun k hk => hbelow k (Nat.le_of_lt hk)) hfuel
  have hb : u.cycles < budget := hbelow n (Nat.le_refl n) u h
  obtain ⟨left, rfl⟩ : ∃ m, left = m + 1 := Nat.exists_eq_add_one.mpr (by omega)
  rw [heq, runFrame_fault hb hf]

/-- Settles O49: the loop ends in the recorded fault, and the steps before it have kept the toggled phase. -/
theorem faultEndsTheFrame : Obligations.FaultEndsTheFrame := by
  intro s u n f hrun h hbelow hf
  have hloop := runFrame_of_run_fault (s := s.beginFrame) (fuel := frameBudget s.phase) hrun h hbelow
    (Nat.le_add_left _ _) hf
  obtain ⟨_, hphase, _⟩ := run_sameOutside h
  refine ⟨(recordFault f u).endFrame, ?_, hphase, rfl, rfl, rfl, rfl, rfl⟩
  rw [stepFrame_of_running hrun, hloop]

/-- Settles O50: the state left is the one O49 gives. -/
theorem faultIsRecordedAndDevicesKept : Obligations.FaultIsRecordedAndDevicesKept := by
  intro s u n f hrun h hbelow hf
  obtain ⟨t, ht, _, _, hfault, hcart, hstatus, hcontroller⟩ := faultEndsTheFrame s u n f hrun h hbelow hf
  rw [ht]
  exact ⟨hfault, hcart, hstatus, hcontroller⟩

/-! ### The invariant between host calls -/

theorem State.hostInv_iff {s : State} : s.hostInv = true ↔ s.inv = true ∧ s.cycles = 0 := by
  rw [State.hostInv, Bool.and_eq_true, beq_iff_eq]

theorem State.inv_of_no_fault {s : State} {c : Cart} (hc : HasCart s c) (hf : s.fault = none)
    (hw : c.wellFormed = true) (hrun : canRunCart c = true) : s.inv = true := by
  rw [State.inv, hc, hf]
  exact Bool.and_eq_true_iff.mpr ⟨hw, hrun⟩

theorem State.inv_of_fault {s : State} {c : Cart} {f : Fault} (hc : HasCart s c) (hf : s.fault = some f)
    (hw : c.wellFormed = true) (hcause : faultHasCause c f = true) : s.inv = true := by
  rw [State.inv, hc, hf]
  exact Bool.and_eq_true_iff.mpr ⟨hw, hcause⟩

theorem State.wellFormed_of_inv {s : State} {c : Cart} (hc : HasCart s c) (h : s.inv = true) :
    c.wellFormed = true := by
  rw [State.inv, hc] at h
  cases hf : s.fault <;> rw [hf] at h <;> exact (Bool.and_eq_true_iff.mp h).1

/-- Recording the fault of a step keeps the invariant: it is the one already recorded, or has its cause. -/
theorem recordFault_inv {s : State} {f : Fault} (hinv : s.inv = true) (h : step s = .fault f) :
    (recordFault f s).inv = true := by
  cases hc : s.cart with
  | none => rw [step_of_no_cart hc] at h; cases h
  | some c =>
    cases hf : s.fault with
    | some g =>
      rw [step_of_fault (Option.ne_none_iff_exists'.mpr ⟨c, hc⟩) hf] at h
      cases h
      exact (State.inv_congr (s := s) (t := recordFault _ s) rfl hf.symm).trans hinv
    | none =>
      have hcause := step_cause hc hf
      rw [h] at hcause
      exact State.inv_of_fault hc rfl (State.wellFormed_of_inv hc hinv) hcause

theorem runFrame_inv {s : State} (fuel budget : Nat) (hinv : s.inv = true) :
    (runFrame fuel budget s).2.inv = true := by
  induction fuel generalizing s with
  | zero => exact hinv
  | succ n ih =>
    by_cases hb : s.cycles < budget
    · cases hs : step s with
      | next t =>
        rw [runFrame_next hb hs]
        exact ih (stepKeepsInvariant s t hinv hs)
      | fault f =>
        rw [runFrame_fault hb hs]
        exact recordFault_inv hinv hs
      | refused r => exact absurd hs (stepIsNeverRefused s r)
    · rwa [runFrame_done (Nat.le_of_not_lt hb)]

theorem stepFrame_hostInv {s : State} (h : s.hostInv = true) : (stepFrame s).2.hostInv = true := by
  obtain ⟨hinv, _⟩ := State.hostInv_iff.mp h
  by_cases hc : s.cart = none
  · rwa [stepFrame_of_no_cart hc]
  · cases hf : s.fault with
    | some f =>
      rw [stepFrame_of_fault hc hf]
      exact State.hostInv_iff.mpr ⟨hinv, rfl⟩
    | none =>
      rw [stepFrame_of_running ⟨hc, hf⟩]
      exact State.hostInv_iff.mpr ⟨runFrame_inv (s := s.beginFrame) _ _ hinv, rfl⟩

/-! ### The invariant after a load -/

/-- A byte of the window that can be read shows a cartridge that can run. -/
theorem canRunCart_of_busRead {s : State} {c : Cart} {addr : Word} {v : Byte} (hc : HasCart s c)
    (hwin : 0x8000 ≤ addr.toNat) (h : busRead s addr = .ok v) : canRunCart c = true := by
  have hm : c.mapperId = 0 := by
    by_contra hm
    rw [busRead_mapper (ne_of_window (by decide) hwin), mapperRead_unknown hc hm] at h
    cases h
  have hb : c.prgBanks ≠ 0 := by
    intro hb
    rw [busRead_window_of_no_bank ⟨hc, hm⟩ hb hwin] at h
    cases h
  exact Bool.and_eq_true_iff.mpr ⟨beq_iff_eq.mpr hm, bne_iff_ne.mpr hb⟩

theorem memRead16_ok_inv {s : State} {addr v : Word} (h : memRead16 s addr = .ok v) :
    ∃ lo, busRead s addr = .ok lo := by
  cases hlo : busRead s addr with
  | ok lo => exact ⟨lo, rfl⟩
  | error e => rw [memRead16_error hlo] at h; cases h

theorem memRead16_error_inv {s : State} {addr : Word} {e : Stop} (h : memRead16 s addr = .error e) :
    ∃ a, busRead s a = .error e := by
  cases hlo : busRead s addr with
  | error e' =>
    rw [memRead16_error hlo] at h
    cases h
    exact ⟨addr, hlo⟩
  | ok lo =>
    cases hhi : busRead s (addr + 1) with
    | ok hi => rw [memRead16_ok hlo hhi] at h; cases h
    | error e' =>
      rw [memRead16, hlo] at h
      dsimp only at h
      rw [hhi] at h
      cases h
      exact ⟨addr + 1, hhi⟩

/-- A reset with a well-formed cartridge meets the invariant, whatever was recorded before: the vector read
decides whether the cartridge can run or its fault is recorded (R148, R149). -/
theorem resetCpu_inv {s : State} {c : Cart} (hc : HasCart s c) (hw : c.wellFormed = true) :
    (resetCpu s).2.inv = true := by
  cases h : memRead16 { s with phase := Phase.even } resetVector with
  | ok v =>
    obtain ⟨lo, hlo⟩ := memRead16_ok_inv h
    rw [resetCpu_ok h]
    exact State.inv_of_no_fault hc rfl hw (canRunCart_of_busRead hc (by decide) hlo)
  | error e =>
    obtain ⟨addr, hr⟩ := memRead16_error_inv h
    have hcause : StopsWithCause c e.toOutcome := busRead_error_cause hc hr
    cases e with
    | fault f =>
      rw [resetCpu_fault h]
      exact State.inv_of_fault hc rfl hw hcause
    | refused r => exact hcause.elim

theorem resetCpu_cycles (s : State) : (resetCpu s).2.cycles = s.cycles := by
  unfold resetCpu
  dsimp only
  split <;> rfl

theorem loadROM_hostInv {s : State} (image : List Byte) (h : s.hostInv = true) :
    (loadROM image s).2.hostInv = true := by
  rcases loadROM_cases image s with ⟨hsame, _⟩ | ⟨hacc, hload⟩
  · rwa [hsame]
  · obtain ⟨_, h0⟩ := State.hostInv_iff.mp h
    rw [hload]
    exact State.hostInv_iff.mpr
      ⟨resetCpu_inv rfl (cartOf_wellFormed image hacc), (resetCpu_cycles _).trans h0⟩

/-- Settles O36: a load ends in a reset with a well-formed cartridge or changes nothing, a frame records only
faults with their cause, and `ppuStatus` is no part of the invariant. -/
theorem hostMovesKeepInvariant : Obligations.HostMovesKeepInvariant := by
  intro m s h
  cases m with
  | loadROM image => exact loadROM_hostInv image h
  | stepFrame => exact stepFrame_hostInv h
  | setPpuStatus v => exact h

end Sys2Proof.Machine
end

section
/-! PROOFS. Family 70_reset_and_hazards.md: process start (R152), what a load installs (R143 to R147) and resets
(R148 to R151), the transaction lists of a step (R154), and the loop, the phases and the budgets of the frame
scheduler (R155 to R157). -/

namespace Sys2Proof.Machine

/-! ### Process start, and a call without a cartridge -/

/-- Settles O35: at process start nothing is installed, recorded or charged, whatever the open parameters. -/
theorem processStartMeetsInvariant : Obligations.ProcessStartMeetsInvariant :=
  have hstart (init : Init) : (State.processStart init).hostInv = true := State.hostInv_iff.mpr ⟨rfl, rfl⟩
  ⟨hstart, hstart Init.zero⟩

/-- Settles O45: a call looks for the cartridge before it touches the phase. -/
theorem frameWithoutCartridgeIsNoop : Obligations.FrameWithoutCartridgeIsNoop :=
  fun _ => stepFrame_of_no_cart

/-! ### The transaction lists of a step

R154's lists are performed beside the step: the state they reach keeps its PC, so it is set against the meaning's
state as `u` against `u.setPc w`. -/

/-- The state with `n` more cycles charged. -/
def State.charged (s : State) (n : Nat) : State :=
  { s with cycles := s.cycles + n }

theorem State.charged_succ (s : State) (n : Nat) : s.charged (n + 1) = s.charge.charged n :=
  congrArg (fun c => { s with cycles := c }) (by rw [State.charge_cycles]; omega)

theorem State.fetched_eq_setPc (s : State) (n : Nat) :
    s.fetched n = (s.charged n).setPc (s.pc + BitVec.ofNat 16 n) :=
  rfl

/-- Every transaction that succeeds is charged one cycle (R12). -/
theorem Transaction.perform_cycles {tr : Transaction} {s t : State} (h : tr.perform s = .ok t) :
    t.cycles = s.cycles + 1 := by
  cases tr with
  | read addr | dummyRead addr =>
    rw [Transaction.perform] at h
    cases hr : busRead s addr <;> rw [hr] at h <;> cases h
    rfl
  | write addr v =>
    rw [Transaction.perform] at h
    cases hw : busWrite s addr v with
    | error e => rw [hw] at h; cases h
    | ok u =>
      rw [hw] at h
      cases h
      rcases busWrite_ok hw with ⟨_, rfl⟩ | ⟨_, _, rfl, _⟩ <;> rfl

theorem performAll_cons_ok {tr : Transaction} {trs : List Transaction} {s t : State} (h : tr.perform s = .ok t) :
    performAll (tr :: trs) s = performAll trs t := by
  rw [performAll, h]

theorem performAll_cons_error {tr : Transaction} {trs : List Transaction} {s : State} {e : Stop}
    (h : tr.perform s = .error e) : performAll (tr :: trs) s = .error e := by
  rw [performAll, h]

/-- A list that succeeds charges one cycle for each of its transactions (R81). -/
theorem performAll_cycles {trs : List Transaction} {s u : State} (h : performAll trs s = .ok u) :
    u.cycles = s.cycles + trs.length := by
  induction trs generalizing s with
  | nil => cases h; rfl
  | cons tr trs ih =>
    cases ht : tr.perform s with
    | error e => rw [performAll_cons_error ht] at h; cases h
    | ok t =>
      rw [performAll_cons_ok ht] at h
      rw [ih h, Transaction.perform_cycles ht, List.length_cons]
      omega

theorem Transaction.perform_read_ok {s : State} {addr : Word} {v : Byte} (h : busRead s addr = .ok v) :
    (Transaction.read addr).perform s = .ok s.charge := by
  rw [Transaction.perform, h]
  rfl

/-- Where the bytes can be read, their fetches do no more than charge their cycles. -/
theorem performAll_fetchTransactions {s u : State} {addr : Word} {n : Nat} {bytes : List Byte}
    (trs : List Transaction) (hsame : SameBytes s u) (h : readBytes s addr n = .ok bytes) :
    performAll (fetchTransactions addr n ++ trs) u = performAll trs (u.charged n) := by
  induction n generalizing u addr bytes with
  | zero => rfl
  | succ n ih =>
    rw [readBytes] at h
    cases hb : busRead s addr with
    | error e => rw [hb] at h; cases h
    | ok b =>
      rw [hb] at h
      dsimp only at h
      cases hrest : readBytes s (addr + 1) n with
      | error e => rw [hrest] at h; cases h
      | ok bs =>
        have hread : busRead u addr = .ok b := (hsame addr).trans hb
        rw [fetchTransactions, List.cons_append, performAll_cons_ok (Transaction.perform_read_ok hread),
          ih (u := u.charge) hsame hrest, State.charged_succ]

/-- A meaning's outcome agrees with what its transactions reach: the same stop, or the same cycle count and the
same `ppuController`. -/
def AgreesWith (out : Out) : Except Stop State → Prop
  | .error e => out = e.toOutcome
  | .ok u => ∃ t, out = .next t ∧ t.cycles = u.cycles ∧ t.ppuController = u.ppuController

theorem agreesWith_next {t u : State} (hcycles : t.cycles = u.cycles)
    (hcontroller : t.ppuController = u.ppuController) : AgreesWith (.next t) (performAll [] u) :=
  ⟨t, rfl, hcycles, hcontroller⟩

theorem agreesWith_withRead {u : State} {w addr : Word} {k : Byte → State → Out} {trs : List Transaction}
    (hk : ∀ v, AgreesWith (k v (u.charge.setPc w)) (performAll trs u.charge)) :
    AgreesWith (withRead (u.setPc w) addr k) (performAll (.read addr :: trs) u) := by
  cases h : busRead u addr with
  | ok v =>
    rw [withRead_ok (s := u.setPc w) h, performAll_cons_ok (Transaction.perform_read_ok h)]
    exact hk v
  | error e =>
    have hstop : (Transaction.read addr).perform u = .error e := by rw [Transaction.perform, h]; rfl
    rw [withRead_error (s := u.setPc w) h, performAll_cons_error hstop]
    rfl

/-- A dummy read is performed as a read is (R160). -/
theorem agreesWith_withDummyRead {u : State} {w addr : Word} {k : State → Out} {trs : List Transaction}
    (hk : AgreesWith (k (u.charge.setPc w)) (performAll trs u.charge)) :
    AgreesWith (withDummyRead (u.setPc w) addr k) (performAll (.dummyRead addr :: trs) u) :=
  agreesWith_withRead (k := fun _ => k) fun _ => hk

theorem busWrite_setPc (u : State) (w addr : Word) (v : Byte) :
    busWrite (u.setPc w) addr v = (busWrite u addr v).map (·.setPc w) := by
  unfold busWrite
  split
  · rfl
  · unfold mapperWrite
    rw [State.setPc_cart]
    cases u.cart with
    | none => rfl
    | some c =>
      dsimp only [nromWrite]
      split_ifs <;> rfl

theorem agreesWith_withWrite {u : State} {w addr : Word} {v : Byte} {k : State → Out} {trs : List Transaction}
    (hk : ∀ t : State, AgreesWith (k (t.charge.setPc w)) (performAll trs t.charge)) :
    AgreesWith (withWrite (u.setPc w) addr v k) (performAll (.write addr v :: trs) u) := by
  have hset := busWrite_setPc u w addr v
  cases h : busWrite u addr v with
  | ok t =>
    rw [h] at hset
    rw [withWrite_ok hset, performAll_cons_ok (Transaction.perform_write_ok h)]
    exact hk t
  | error e =>
    rw [h] at hset
    have hstop : (Transaction.write addr v).perform u = .error e := by rw [Transaction.perform, h]; rfl
    rw [withWrite_error hset, performAll_cons_error hstop]
    rfl

theorem execBpl_agreesWith (rel8 : Byte) (s : State) :
    AgreesWith (execBpl rel8 s) (performAll (dataTransactions (.bpl rel8) s) (s.charged 2)) := by
  have hN : (s.fetched 2).flag .N = s.flag .N := rfl
  have hpc : (s.fetched 2).pc = s.pc + 2 := rfl
  unfold execBpl dataTransactions
  dsimp only
  rw [hN, hpc, State.fetched_eq_setPc]
  split_ifs with hneg hpage
  · exact agreesWith_next rfl rfl
  · exact agreesWith_withDummyRead (agreesWith_next rfl rfl)
  · exact agreesWith_withDummyRead (agreesWith_withDummyRead (agreesWith_next rfl rfl))

/-- An implied instruction changes neither the cycle count nor `ppuController` after its dummy read. -/
theorem impliedThen_agreesWith {change : State → State} {s : State}
    (hcycles : ∀ u, (change u).cycles = u.cycles) (hcontroller : ∀ u, (change u).ppuController = u.ppuController) :
    AgreesWith (impliedThen change s) (performAll [.dummyRead (s.pc + 1)] (s.charged 1)) :=
  agreesWith_withDummyRead (u := s.charged 1) (w := s.pc + 1) (agreesWith_next (hcycles _) (hcontroller _))

/-- What an instruction does after its fetches is what its data transactions say (R154). -/
theorem exec_agreesWith (i : Instr) (s : State) :
    AgreesWith (exec i s) (performAll (dataTransactions i s) (s.charged i.length)) := by
  cases i with
  | bpl rel8 => exact execBpl_agreesWith rel8 s
  | sei => exact impliedThen_agreesWith (change := fun t => t.setFlag .I true) (fun _ => rfl) fun _ => rfl
  | txs =>
    exact impliedThen_agreesWith (change := fun t => t.writeReg .SP (t.readReg .X)) (fun _ => rfl) fun _ => rfl
  | cld => exact impliedThen_agreesWith (change := fun t => t.setFlag .D false) (fun _ => rfl) fun _ => rfl
  | ldxImm imm8 | ldaImm imm8 => exact agreesWith_next (u := s.charged 2) rfl rfl
  | staAbs addr =>
    exact agreesWith_withWrite (u := s.charged 3) (w := s.pc + 3) (k := .next) fun _ => agreesWith_next rfl rfl
  | ldaAbs addr =>
    exact agreesWith_withRead (u := s.charged 3) (w := s.pc + 3) (k := fun v t => .next (t.loadReg .A v))
      fun _ => agreesWith_next rfl rfl

/-- Settles O40: the fetches only charge their cycles, the data transactions agree with the meaning, and a list
that succeeds has charged its length. -/
theorem transactionsDecideStep : Obligations.TransactionsDecideStep := by
  intro s i bytes hrun hread hdec
  have hstep : step s = exec i s := stepRunsDecodedInstruction s i.length bytes [] i hrun hread hdec
  have hfetches : performAll (transactions i s) s = performAll (dataTransactions i s) (s.charged i.length) :=
    performAll_fetchTransactions _ (fun _ => rfl) hread
  have hagree : AgreesWith (step s) (performAll (transactions i s) s) := by
    rw [hstep, hfetches]
    exact exec_agreesWith i s
  cases hall : performAll (transactions i s) s with
  | error e => rwa [hall] at hagree
  | ok u =>
    rw [hall] at hagree
    obtain ⟨t, hnext, hcycles, hcontroller⟩ := hagree
    exact ⟨t, hnext, hcycles.trans (performAll_cycles hall), hcycles, hcontroller⟩

/-! ### The loop of a call -/

/-- The run of `n` steps goes on to `u`, and each of its steps starts below the budget (R155). -/
def RunsBelow (budget n : Nat) (s u : State) : Prop :=
  Sys2Proof.core.run n s = .next u ∧
    ∀ k < n, ∀ v : State, Sys2Proof.core.run k s = .next v → v.cycles < budget

theorem runsBelow_zero (budget : Nat) (s : State) : RunsBelow budget 0 s s :=
  ⟨rfl, fun _ hk => absurd hk (Nat.not_lt_zero _)⟩

theorem RunsBelow.step_first {budget n : Nat} {s t u : State} (hb : s.cycles < budget) (hst : step s = .next t)
    (h : RunsBelow budget n t u) : RunsBelow budget (n + 1) s u := by
  obtain ⟨hrun, hbelow⟩ := h
  refine ⟨(run_succ_next n hst).trans hrun, fun k hk v hv => ?_⟩
  cases k with
  | zero => cases hv; exact hb
  | succ k => exact hbelow k (Nat.lt_of_succ_lt_succ hk) v ((run_succ_next k hst).symm.trans hv)

/-- Everything the loop of a running machine can do: run steps that start below the budget, until the count has
reached it or a step faults. -/
theorem runFrame_cases {fuel budget : Nat} {s : State} (hrun : Running s) (hfuel : budget ≤ s.cycles + fuel) :
    ∃ n u, RunsBelow budget n s u ∧
      ((budget ≤ u.cycles ∧ runFrame fuel budget s = (.success, u)) ∨
        ∃ f, step u = .fault f ∧ runFrame fuel budget s = (.fault f, recordFault f u)) := by
  induction fuel generalizing s with
  | zero => exact ⟨0, s, runsBelow_zero budget s, .inl ⟨hfuel, rfl⟩⟩
  | succ fuel ih =>
    by_cases hb : s.cycles < budget
    · cases hs : step s with
      | next t =>
        have hlt := step_cycles_lt hrun hs
        obtain ⟨n, u, hbelow, hend⟩ := ih ((step_sameOutside hs).running hrun) (by omega)
        rw [runFrame_next hb hs]
        exact ⟨n + 1, u, hbelow.step_first hb hs, hend⟩
      | fault f => exact ⟨0, s, runsBelow_zero budget s, .inr ⟨f, hs, runFrame_fault hb hs⟩⟩
      | refused r => exact absurd hs (stepIsNeverRefused s r)
    · have hdone := Nat.le_of_not_lt hb
      exact ⟨0, s, runsBelow_zero budget s, .inl ⟨hdone, runFrame_done hdone⟩⟩

/-- A run that first reaches the budget at its end is the whole loop. -/
theorem runFrame_of_runsBelow {n fuel budget : Nat} {s u : State} (hrun : Running s) (h : RunsBelow budget n s u)
    (hfuel : budget ≤ s.cycles + fuel) (hend : budget ≤ u.cycles) : runFrame fuel budget s = (.success, u) := by
  obtain ⟨hsteps, hbelow⟩ := h
  obtain ⟨left, _, hloop⟩ := runFrame_of_run hrun hsteps hbelow hfuel
  rw [hloop, runFrame_done hend]

/-- Settles O47: the loop that succeeds is a run that first reaches the budget at its end, and such a run is the
loop. -/
theorem frameSuccessIsTheLoop : Obligations.FrameSuccessIsTheLoop := by
  intro s t hrun
  have hfuel : frameBudget s.phase ≤ s.beginFrame.cycles + frameBudget s.phase := Nat.le_add_left _ _
  rw [stepFrame_of_running hrun]
  constructor
  · intro h
    obtain ⟨n, u, ⟨hsteps, hbelow⟩, ⟨hend, hloop⟩ | ⟨f, _, hloop⟩⟩ :=
      runFrame_cases (s := s.beginFrame) hrun hfuel
    · rw [hloop] at h
      cases h
      exact ⟨n, u, hsteps, hbelow, hend, rfl⟩
    · rw [hloop] at h
      cases h
  · rintro ⟨n, u, hsteps, hbelow, hend, rfl⟩
    rw [runFrame_of_runsBelow (s := s.beginFrame) hrun ⟨hsteps, hbelow⟩ hfuel hend]
    rfl

/-! ### The overrun of the last step -/

/-- A run of n + 1 steps that goes on ends with a step that goes on. -/
theorem run_succ_inv_last {s u : State} {n : Nat} (h : Sys2Proof.core.run (n + 1) s = .next u) :
    ∃ v, Sys2Proof.core.run n s = .next v ∧ step v = .next u := by
  induction n generalizing s with
  | zero =>
    obtain ⟨t, hst, hu⟩ := run_succ_inv h
    cases hu
    exact ⟨s, rfl, hst⟩
  | succ n ih =>
    obtain ⟨t, hst, htu⟩ := run_succ_inv h
    obtain ⟨v, htv, hvu⟩ := ih htu
    exact ⟨v, (run_succ_next n hst).trans htv, hvu⟩

theorem Instr.maxCycles_le_four (i : Instr) : i.row.maxCycles ≤ 4 := by
  rw [Instr.row]
  cases i.op <;> decide

theorem step_cycles_le {s t : State} (h : step s = .next t) : t.cycles ≤ s.cycles + 4 := by
  rcases step_next h with ⟨_, rfl⟩ | ⟨_, i, _, hi⟩
  · exact Nat.le_add_right _ 4
  · obtain ⟨_, hmax, _⟩ := cyclesOfEachInstruction i s t hi
    exact hmax.trans (Nat.add_le_add_left (Instr.maxCycles_le_four i) _)

theorem frameBudget_pos (p : Phase) : 0 < frameBudget p := by
  cases p <;> decide

/-- Settles O48: the last step starts below the budget and charges at most 4 cycles. -/
theorem frameOverrunsByAtMostThree : Obligations.FrameOverrunsByAtMostThree := by
  intro s u n hrun hsteps hbelow hend
  refine ⟨(frameSuccessIsTheLoop s _ hrun).mpr ⟨n, u, hsteps, hbelow, hend, rfl⟩, ?_⟩
  cases n with
  | zero =>
    cases hsteps
    exact absurd hend (Nat.not_le.mpr (frameBudget_pos s.phase))
  | succ n =>
    obtain ⟨v, hv, hlast⟩ := run_succ_inv_last hsteps
    have hstart := hbelow n (Nat.lt_succ_self n) v hv
    have hcharge := step_cycles_le hlast
    omega

/-! ### What every call returns, and the budgets of the calls -/

/-- The loop of a running machine succeeds or faults, and keeps the phase. -/
theorem runFrame_returns {fuel budget : Nat} {s : State} (hrun : Running s) (hfuel : budget ≤ s.cycles + fuel) :
    ((runFrame fuel budget s).1 = .success ∨ ∃ f, (runFrame fuel budget s).1 = .fault f) ∧
      (runFrame fuel budget s).2.phase = s.phase := by
  obtain ⟨n, u, ⟨hsteps, _⟩, hend⟩ := runFrame_cases hrun hfuel
  obtain ⟨_, hphase, _⟩ := run_sameOutside hsteps
  rcases hend with ⟨_, hloop⟩ | ⟨f, _, hloop⟩ <;> rw [hloop]
  · exact ⟨.inl rfl, hphase⟩
  · exact ⟨.inr ⟨f, rfl⟩, hphase⟩

/-- Settles O51: a recorded fault is returned at once, and otherwise the loop succeeds or faults. -/
theorem frameReturns : Obligations.FrameReturns := by
  intro s hc
  cases hf : s.fault with
  | some f =>
    rw [stepFrame_of_fault hc hf]
    exact ⟨.inr ⟨f, rfl⟩, rfl, rfl⟩
  | none =>
    have hrun : Running s.beginFrame := ⟨hc, hf⟩
    obtain ⟨hreply, hphase⟩ := runFrame_returns hrun (Nat.le_add_left (frameBudget s.phase) _)
    rw [stepFrame_of_running ⟨hc, hf⟩]
    exact ⟨hreply, hphase, rfl⟩

/-- Calls of a machine with a cartridge toggle the phase each time, whatever they return. -/
theorem frames_phase {s : State} (n : Nat) (hc : s.cart ≠ none) :
    (frames n s).phase = if n % 2 = 0 then s.phase else s.phase.toggle := by
  induction n generalizing s with
  | zero => rfl
  | succ n ih =>
    obtain ⟨_, hphase, _⟩ := frameReturns s hc
    rw [frames, ih (by rwa [stepFrame_cart]), hphase, Phase.toggle_toggle]
    rcases Nat.mod_two_eq_zero_or_one n with hn | hn <;> simp [hn, Nat.add_mod]

/-- A load that succeeds has accepted its image. -/
theorem acceptedImage_of_success {image : List Byte} {s : State} (h : (loadROM image s).1 = .success) :
    acceptedImage image := by
  rcases loadROM_cases image s with ⟨_, hrefused | hrefused⟩ | ⟨hacc, _⟩
  · rw [hrefused] at h; cases h
  · rw [hrefused] at h; cases h
  · exact hacc

/-- An accepted image leaves its cartridge installed and the phase even (R147, R151). -/
theorem loadROM_installs {image : List Byte} (s : State) (hacc : acceptedImage image) :
    HasCart (loadROM image s).2 (cartOf image) ∧ (loadROM image s).2.phase = .even := by
  rw [loadROM_accepted hacc]
  exact resetCpu_keeps _

/-- Settles O52: the load leaves the phase even, and each call toggles it. -/
theorem budgetsAlternate : Obligations.BudgetsAlternate := by
  intro image s n h
  obtain ⟨hcart, hphase⟩ := loadROM_installs s (acceptedImage_of_success h)
  rw [frames_phase n (Option.ne_none_iff_exists'.mpr ⟨_, hcart⟩), hphase]
  split_ifs <;> rfl

/-! ### What a load installs -/

/-- A buffer made of the `n` bytes of an image from an offset on holds them in order. -/
theorem read_ofBytes_take_drop {image : List Byte} {start n k : Nat} (hk : k < n) :
    (Memory.ofBytes 0 ((image.drop start).take n)).read k = image.getD (start + k) 0 := by
  have hread := Memory.read_ofBytes (n := 0) (k := k) (bs := (image.drop start).take n)
  rwa [Nat.zero_add, List.getD_eq_getElem?_getD, List.getElem?_take_of_lt hk, List.getElem?_drop,
    ← List.getD_eq_getElem?_getD] at hread

theorem cartOf_chr_absent {image : List Byte} (h : (cartOf image).chrBanks = 0) : (cartOf image).chr = none :=
  if_pos h

theorem cartOf_chr_present {image : List Byte} (h : (cartOf image).chrBanks ≠ 0) :
    (cartOf image).chr =
      some (Memory.ofBytes 0 ((image.drop (16 + declaredPrg image)).take (declaredChr image))) :=
  if_neg h

/-- Settles O55: the installed cartridge is the image's own, and its buffers are cut from the image. -/
theorem loadInstallsImage : Obligations.LoadInstallsImage := by
  intro image s hacc
  obtain ⟨hcart, _⟩ := loadROM_installs s hacc
  refine ⟨cartOf image, hcart, rfl, rfl, rfl, beq_iff_eq, ?prg, cartOf_chr_absent, ?chr⟩
  case prg => exact fun k hk => read_ofBytes_take_drop hk
  case chr => exact fun hne => ⟨_, cartOf_chr_present hne, fun k hk => read_ofBytes_take_drop hk⟩

/-! ### The reset a load ends with -/

theorem busRead_window_ok {s : State} {c : Cart} {addr : Word} (hn : HasNrom s c) (hb : c.prgBanks ≠ 0)
    (h : 0x8000 ≤ addr.toNat) : ∃ v, busRead s addr = .ok v := by
  obtain ⟨off, ho⟩ := nromOffset_window (banks := c.prgBanks) h
  exact ⟨_, busRead_window hn hb h ho⟩

/-- Settles O56: both vector bytes lie in the window, so the reset completes. -/
theorem loadResets : Obligations.LoadResets := by
  intro image s hacc hmapper hbanks
  have hn : HasNrom { s with cart := some (cartOf image), phase := .even } (cartOf image) := ⟨rfl, hmapper⟩
  obtain ⟨lo, hlo⟩ := busRead_window_ok (addr := 0xFFFC) hn hbanks (by decide)
  obtain ⟨hi, hhi⟩ := busRead_window_ok (addr := 0xFFFD) hn hbanks (by decide)
  rw [loadROM_accepted hacc, resetCpu_ok (memRead16_ok hlo hhi)]
  exact ⟨_, lo, hi, rfl, hlo, hhi, rfl, rfl, rfl, rfl, rfl, rfl, rfl, rfl, rfl, rfl⟩

/-- A byte of the window that the cartridge cannot give faults: by the mapper, and for NROM by the range (R49,
R51). -/
theorem busRead_window_fault {s : State} {c : Cart} {addr : Word} (hc : HasCart s c)
    (hwin : 0x8000 ≤ addr.toNat) (h : c.mapperId ≠ 0 ∨ c.prgBanks = 0) :
    busRead s addr =
      .error (.fault (if c.mapperId ≠ 0 then .unsupportedMapper addr else .prgOutOfRange addr)) := by
  by_cases hm : c.mapperId = 0
  · rw [if_neg (not_not_intro hm)]
    exact busRead_window_of_no_bank ⟨hc, hm⟩ (h.resolve_left (not_not_intro hm)) hwin
  · rw [if_pos hm, busRead_mapper (ne_of_window (by decide) hwin), mapperRead_unknown hc hm]

/-- Settles O57: the first vector byte cannot be read, and its fault is recorded in the installed machine. -/
theorem vectorFaultLeavesMachineFaulted : Obligations.VectorFaultLeavesMachineFaulted := by
  intro image s hacc hcause
  have hc : HasCart { s with cart := some (cartOf image), phase := .even } (cartOf image) := rfl
  have hread := busRead_window_fault (addr := 0xFFFC) hc (by decide) hcause
  rw [loadROM_accepted hacc, resetCpu_fault (memRead16_error hread)]
  exact ⟨_, _, rfl, rfl, rfl, rfl, ⟨_, rfl, rfl⟩, rfl, rfl, rfl, rfl, rfl⟩

end Sys2Proof.Machine
end
